-- ==== Sys2Proof/Word.lean ====
section
/-! DEFINITION. The widths of MTCORE's words (00_scope.md R11, R12). -/

namespace Sys2Proof

/-- A `u32`: a state word, a seed, a draw (R12). -/
abbrev Word := BitVec 32

/-- A `u64`: response data (R12, R75). -/
abbrev DWord := BitVec 64

/-- A command word, `OP[39:32]` and `DATA[31:0]` (R73). -/
abbrev CmdWord := BitVec 40

end Sys2Proof
end

