-- ==== Sys2Proof/Syntax.lean ====
section
/-! DEFINITION. The six commands of MTCORE (R77), and the assembler's statements (R81). -/

namespace Sys2Proof

/-- The commands, one constructor per row of spec/opcode_table.json. Only `SEED` has an operand: every other
command ignores `DATA` (R74), so `DATA` is no part of it. -/
inductive Instr where
  | nop
  | seed (value : Word)
  | nextU32
  | nextU64
  | nextF32
  | nextF64
  deriving DecidableEq, Repr

/-- The assembler's mnemonics (R81). -/
inductive Mnemonic where
  | nop
  | seed
  | nextU32
  | nextU64
  | nextF32
  | nextF64
  deriving DecidableEq, Repr

/-- One assembler statement as written, before any range check: a mnemonic with the literal written after it, if
any, or `.cmd` with its literal (R81). Literals are integers, because a negative one can be written and is refused
(R82). -/
inductive AsmStmt where
  | op (m : Mnemonic) (operand : Option Int)
  | rawCmd (literal : Int)
  deriving DecidableEq, Repr

end Sys2Proof
end

