-- ==== Sys2Proof/WellFormed.lean ====
section
/-! DEFINITION. The checks the assembler makes on a statement (R82). A term of `Instr` needs no check: its one
operand is a `Word`, and every `Word` is a seed (R74). -/

namespace Sys2Proof

/-- `SEED` takes a literal in [0, 2^32 − 1], every other mnemonic takes no operand, and a `.cmd` literal lies in
[0, 2^40 − 1] (R82). -/
def AsmStmt.wf : AsmStmt → Bool
  | .op .seed (some v) => decide (0 ≤ v ∧ v < 4294967296)
  | .op .seed none     => false
  | .op _ (some _)     => false
  | .op _ none         => true
  | .rawCmd v          => decide (0 ≤ v ∧ v < 1099511627776)

end Sys2Proof
end

