-- ==== Sys2Proof/Decode.lean ====
section
/-! DEFINITION. Command words to commands and back (30_encoding.md R73 to R84), and the assembler's encodings
(R81, R82). -/

namespace Sys2Proof

/-- `OP = cmd_word[39:32]` (R73). -/
def cmdOp (w : CmdWord) : BitVec 8 := w.extractLsb' 32 8

/-- `DATA = cmd_word[31:0]` (R73). -/
def cmdData (w : CmdWord) : Word := w.extractLsb' 0 32

/-- The command word with `OP` in bits 39:32 and `DATA` in bits 31:0 (R73). -/
def commandWord (op : BitVec 8) (data : Word) : CmdWord := op ++ data

/-- The decoder of R84, `decode(w) = row(w[39:32])`. `none` is the reserved opcode space 0x06 to 0xFF (R78),
which the machine answers with ILLEGAL_OP. -/
def decode (w : CmdWord) : Option Instr :=
  match (cmdOp w).toNat with
  | 0x00 => some .nop
  | 0x01 => some (.seed (cmdData w))
  | 0x02 => some .nextU32
  | 0x03 => some .nextU64
  | 0x04 => some .nextF32
  | 0x05 => some .nextF64
  | _    => none

/-- The opcode of a command (R77). -/
def opcode : Instr → BitVec 8
  | .nop     => 0x00
  | .seed _  => 0x01
  | .nextU32 => 0x02
  | .nextU64 => 0x03
  | .nextF32 => 0x04
  | .nextF64 => 0x05

/-- The `DATA` field of a command: the seed, and 0 where it is ignored (R74, R81). -/
def dataField : Instr → Word
  | .nop     => 0
  | .seed v  => v
  | .nextU32 => 0
  | .nextU64 => 0
  | .nextF32 => 0
  | .nextF64 => 0

/-- The command word of a command, `OP` above `DATA` (R73, R81). -/
def encode (i : Instr) : CmdWord := commandWord (opcode i) (dataField i)

/-- The command a mnemonic stands for, with the seed of `SEED`. -/
def Mnemonic.instr : Mnemonic → Word → Instr
  | .nop, _     => .nop
  | .seed, v    => .seed v
  | .nextU32, _ => .nextU32
  | .nextU64, _ => .nextU64
  | .nextF32, _ => .nextF32
  | .nextF64, _ => .nextF64

/-- The word the assembler writes for a statement (R81). It refuses a statement that is not well formed, and never
truncates a literal (R82). -/
def assemble (a : AsmStmt) : Option CmdWord :=
  if a.wf then
    match a with
    | .op m operand => some (encode (m.instr (BitVec.ofInt 32 (operand.getD 0))))
    | .rawCmd v     => some (BitVec.ofInt 40 v)
  else none

/-- A command word read from `nbits` table bits held in `w`; a command word is one word of 40 bits and has no bytes
to order (R52, R73), so its bit k is bit k of `w`. -/
def tableWord (nbits w : Nat) : CmdWord := BitVec.ofNat 40 (w % 2 ^ nbits)

/-- What the decoder reads from a row's word, numbered as spec/opcode_table.json numbers it. -/
def decodeTableWord (nbits w : Nat) : Option Instr := decode (tableWord nbits w)

end Sys2Proof
end

