-- ==== Sys2Proof/Config.lean ====
section
/-! DEFINITION. What a design of MTCORE fixes (R8, R9) and the one value the spec leaves free (R71).
The choice this hardware makes of the two parameters is `Machine.hardware` (Machine/Params.lean). -/

namespace Sys2Proof

/-- `FLOAT32_METHOD`, how `NEXT_F32` rounds (R8, R140). -/
inductive Float32Method where
  | singleRounding
  | naiveF32
  | viaF64
  deriving DecidableEq, Repr

/-- `F64_SOURCE`, what `NEXT_F64` converts (R9, R146). -/
inductive F64Source where
  | u32
  | u64
  deriving DecidableEq, Repr

/-- The design-time parameters of an MTCORE. -/
structure Config where
  float32Method : Float32Method
  f64Source     : F64Source
  deriving DecidableEq, Repr

/-- FREE VALUE (assumption 4). Which of the offered words is accepted when a host changed `cmd_word` while
offering it (R71, 93 I12 "`any value` among the words offered"). Read at the counter `State.freeCount`. -/
opaque Config.offerChoice : Nat → Nat

end Sys2Proof
end

