-- ==== Sys2Proof/Machine/Params.lean ====
section
/-! DEFINITION. The fixed constants of the algorithm (R6, R7) and the parameters this hardware takes (R8, R9). -/

namespace Sys2Proof.Machine

/-- n, the number of state words (R6). -/
def nWords : Nat := 624
/-- m, the offset of the third word the twist reads (R6). -/
def offsetM : Nat := 397
/-- UPPER_MASK (R6). -/
def upperMask : Word := 0x80000000
/-- LOWER_MASK (R6). -/
def lowerMask : Word := 0x7fffffff
/-- a, the twist matrix constant (R6). -/
def matrixA : Word := 0x9908b0df
/-- f, the seeding multiplier (R6). -/
def seedMultiplier : Word := 1812433253
/-- b, the mask of the first tempering left shift (R6). -/
def temperMaskB : Word := 0x9d2c5680
/-- c, the mask of the second tempering left shift (R6). -/
def temperMaskC : Word := 0xefc60000

/-- This hardware: `FLOAT32_METHOD = SINGLE_ROUNDING` (R8), `F64_SOURCE = U32` (R9). -/
def hardware : Config where
  float32Method := .singleRounding
  f64Source     := .u32

end Sys2Proof.Machine
end

