-- ==== Sys2Proof/Machine/Float.lean ====
section
/-! DEFINITION. The [0, 1] float converter (R18, R139 to R147): IEEE 754 rounding of a non-negative quotient of
integers, and the conversions of each `FLOAT32_METHOD` and of binary64. Only non-negative values occur (R144). -/

namespace Sys2Proof.Machine

/-- An IEEE 754 binary interchange format: the widths of its exponent and fraction fields (R18). -/
structure FloatFormat where
  expBits  : Nat
  fracBits : Nat
  deriving DecidableEq, Repr

/-- IEEE 754 binary32 (R18). -/
def binary32 : FloatFormat := ⟨8, 23⟩
/-- IEEE 754 binary64 (R18). -/
def binary64 : FloatFormat := ⟨11, 52⟩

/-- The exponent bias. -/
def FloatFormat.bias (f : FloatFormat) : Nat := 2 ^ (f.expBits - 1) - 1

/-- The bit pattern of positive infinity; every smaller pattern is a finite non-negative value. -/
def FloatFormat.infBits (f : FloatFormat) : Nat := (2 ^ f.expBits - 1) * 2 ^ f.fracBits

/-- `n / d` rounded to the nearest integer, ties to even. -/
def divNearestEven (n d : Nat) : Nat :=
  let q := n / d
  let r := n % d
  if 2 * r < d then q else if d < 2 * r then q + 1 else q + q % 2

/-- The integer e with `2^e ≤ n / d < 2^(e+1)`, for positive n and d. -/
def ratioLog2 (n d : Nat) : Int :=
  let e : Int := (n.log2 : Int) - (d.log2 : Int)
  if n * 2 ^ (-e).toNat < d * 2 ^ e.toNat then e - 1 else e

/-- The bit pattern of the value of `f` nearest to `n / d`, ties to even: `bits32(RNE32(n / d))` and
`bits64(RNE64(n / d))` (R18). A significand that rounds up to the next power of two carries into the exponent. -/
def rneBits (f : FloatFormat) (n d : Nat) : Nat :=
  if n = 0 then 0 else
    let e := max (ratioLog2 n d) (1 - (f.bias : Int))
    let ulp := e - (f.fracBits : Int)
    let sig := divNearestEven (n * 2 ^ (-ulp).toNat) (d * 2 ^ ulp.toNat)
    min ((e + (f.bias : Int) - 1).toNat * 2 ^ f.fracBits + sig) f.infBits

/-- The value of a finite non-negative bit pattern, as numerator and denominator. -/
def floatRatio (f : FloatFormat) (bits : Nat) : Nat × Nat :=
  let expField := bits / 2 ^ f.fracBits
  let frac := bits % 2 ^ f.fracBits
  let sig := if expField = 0 then frac else 2 ^ f.fracBits + frac
  let e : Int := (max expField 1 : Nat) - (f.bias : Int) - (f.fracBits : Int)
  (sig * 2 ^ e.toNat, 2 ^ (-e).toNat)

/-- `u32::MAX`, 2^32 − 1, the divisor of a 32-bit draw (R140). -/
def u32Max : Nat := 4294967295
/-- 2^64 − 1, the divisor of a 64-bit draw (R145). -/
def u64Max : Nat := 18446744073709551615

/-- `SINGLE_ROUNDING`: `RNE32(x / 4294967295)` (R140). -/
def f32Single (x : Nat) : Nat := rneBits binary32 x u32Max

/-- `NAIVE_F32`: `RNE32(RNE32(x) / RNE32(4294967295))` (R140). -/
def f32Naive (x : Nat) : Nat :=
  let a := floatRatio binary32 (rneBits binary32 x 1)
  let b := floatRatio binary32 (rneBits binary32 u32Max 1)
  rneBits binary32 (a.1 * b.2) (a.2 * b.1)

/-- `VIA_F64`: `RNE32(RNE64(x / 4294967295))` (R140). -/
def f32ViaF64 (x : Nat) : Nat :=
  let a := floatRatio binary64 (rneBits binary64 x u32Max)
  rneBits binary32 a.1 a.2

/-- `bits32(U32ToF32(x))` under each method (R140). -/
def u32ToF32 (m : Float32Method) (x : Word) : BitVec 32 :=
  match m with
  | .singleRounding => BitVec.ofNat 32 (f32Single x.toNat)
  | .naiveF32       => BitVec.ofNat 32 (f32Naive x.toNat)
  | .viaF64         => BitVec.ofNat 32 (f32ViaF64 x.toNat)

/-- `bits64(U32ToF64(x))` (R145). -/
def u32ToF64 (x : Word) : BitVec 64 := BitVec.ofNat 64 (rneBits binary64 x.toNat u32Max)

/-- `bits64(U64ToF64(z))` (R145). -/
def u64ToF64 (z : DWord) : BitVec 64 := BitVec.ofNat 64 (rneBits binary64 z.toNat u64Max)

end Sys2Proof.Machine
end

