-- ==== Sys2Proof/Machine/State.lean ====
section
/-! DEFINITION. The state of MTCORE: the four architectural rows of R30, the held response of R72, and the model's
own record of the host's side of the ports. Plain data throughout. -/

namespace Sys2Proof.Machine

/-- A response, the pair (`rsp_code`, `rsp_data`) of R75. -/
structure Response where
  code : BitVec 2
  data : DWord
  deriving DecidableEq, Repr

/-- The levels a host drives on MTCORE's input ports at one rising edge of `clk` (R70). -/
structure PortSample where
  rst      : Bool
  cmdValid : Bool
  cmdWord  : CmdWord
  rspReady : Bool
  deriving DecidableEq, Repr

/-- The machine. The first four fields are the whole architectural state (R30). `rsp` is the transport state of R72.
The last four are the model's own (INVENTORY.md, State). -/
structure State where
  /-- `mt[0..623]`, the state vector (R31). -/
  mt        : Vector Word 624
  /-- `index`, the cursor, an integer in [0, 624] (R32, R33). -/
  index     : Fin 625
  /-- `seeded` (R34). -/
  seeded    : Bool
  /-- `sticky_err` (R35). -/
  stickyErr : Bool
  /-- The held response of the outstanding command; `none` when no command is outstanding (R72, R76). -/
  rsp       : Option Response
  /-- What the host will drive at the coming rising edges, the next edge first (assumption 2). -/
  inputs    : List PortSample
  /-- The distinct words offered since the present offer began and not accepted, oldest first (R71). -/
  offered   : List CmdWord
  /-- The responses the host has taken, oldest first (R76, assumption 6). -/
  taken     : List Response
  /-- How many free values have been drawn (assumption 4). -/
  freeCount : Nat
  deriving DecidableEq, Repr

/-- Why the machine stops with a fault. There is no reason: the algorithm raises no error (R170), a command error is
a response (R171), and no trap exists (R177). Safe: nothing raises it. -/
inductive Fault where
  deriving DecidableEq, Repr

/-- Why an instruction has no meaning. -/
inductive Refusal where
  /-- Would be raised by an arm of `exec` not yet modelled. Every arm is modelled, so nothing raises it. Safe. -/
  | notModelled (mnemonic : String)
  deriving DecidableEq, Repr

/-- The state right after reset (R42): `seeded` and `sticky_err` are 0, no response is pending, and no host has
driven anything. `mt` and `index` have no value in the spec. Zero is this model's DESIGN CHOICE (assumption 1). -/
def State.reset : State where
  mt        := Vector.replicate 624 0
  index     := 0
  seeded    := false
  stickyErr := false
  rsp       := none
  inputs    := []
  offered   := []
  taken     := []
  freeCount := 0

end Sys2Proof.Machine
end

