-- ==== Sys2Proof/Machine/Flags.lean ====
section
/-! DEFINITION. MTCORE's only two flags and the STATUS word they form (R34 to R36, R40). -/

namespace Sys2Proof.Machine

/-- `seeded <- 1`, which only `SEED` does (R34). -/
def State.setSeeded (s : State) : State := { s with seeded := true }

/-- `sticky_err <- 1`, which every error response does (R35). -/
def State.setStickyErr (s : State) : State := { s with stickyErr := true }

/-- The output port `status[1:0]`: bit 0 SEEDED, bit 1 STICKY_ERR (R36, R70). -/
def State.statusPort (s : State) : BitVec 2 := BitVec.ofBool s.stickyErr ++ BitVec.ofBool s.seeded

/-- The STATUS word: the port in bits 1:0, reserved bits 31:2 read as 0 (R36). -/
def State.statusWord (s : State) : BitVec 32 := s.statusPort.setWidth 32

end Sys2Proof.Machine
end

