-- ==== Sys2Proof/Machine/Operands.lean ====
section
/-! DEFINITION. The shapes of response data (R17, R80) and the response codes (R75). The one operand form, the seed
in `DATA`, is taken apart by Decode. -/

namespace Sys2Proof.Machine

/-- `zext64(v)` (R17). -/
def zext64 (v : Word) : DWord := v.setWidth 64

/-- `{a, b}`: a in bits 63:32 and b in bits 31:0 (R17). -/
def joinWords (a b : Word) : DWord := (zext64 a <<< 32) ||| zext64 b

/-- Response code OK (R75). -/
def codeOk : BitVec 2 := 0
/-- Response code ILLEGAL_OP (R75). -/
def codeIllegalOp : BitVec 2 := 1
/-- Response code NOT_SEEDED (R75). -/
def codeNotSeeded : BitVec 2 := 2

end Sys2Proof.Machine
end

