-- ==== Sys2Proof/Machine/Ops.lean ====
section
/-! DEFINITION. The named operations every command is built from (R19): reads and writes of `mt` and `index`,
counted loops, the response, and the command error. MTCORE has no trap and no return from one (R177, R178), so
`cmdError` is all there is of exceptions. -/

namespace Sys2Proof.Machine

/-- `mt[i mod 624]` (R16, R51). -/
def mtWord (mt : Vector Word 624) (i : Nat) : Word := mt[i % 624]'(Nat.mod_lt i (by decide))

/-- `mt[i mod 624] <- v` (R16, R51). -/
def mtWrite (mt : Vector Word 624) (i : Nat) (v : Word) : Vector Word 624 :=
  mt.set (i % 624) v (Nat.mod_lt i (by decide))

/-- `for i in 0..n-1`, in increasing order (R20). -/
def forUpTo {σ : Type} (f : σ → Nat → σ) : Nat → σ → σ
  | 0, x     => x
  | n + 1, x => f (forUpTo f n x) n

/-- Writes the whole state vector. -/
def State.setMt (s : State) (mt : Vector Word 624) : State := { s with mt := mt }

/-- `index <- i`, for i in [0, 624] (R32). -/
def State.setIndex (s : State) (i : Nat) : State := { s with index := Fin.ofNat 625 i }

/-- `respond(code, data)`: the one response of the current command, held until the host takes it (R19, R76). -/
def State.respond (s : State) (code : BitVec 2) (data : DWord) : State := { s with rsp := some ⟨code, data⟩ }

/-- `raise CmdError(code)`: `sticky_err <- 1`, the response (code, 0), and nothing else (R171). -/
def cmdError (code : BitVec 2) (s : State) : Host.Outcome State Fault Refusal :=
  .next (s.setStickyErr.respond code 0)

/-- The guard every draw command opens with: NOT_SEEDED before anything is drawn (R173). -/
def whenSeeded (s : State) (body : State → State) : Host.Outcome State Fault Refusal :=
  if s.seeded then .next (body s) else cmdError codeNotSeeded s

end Sys2Proof.Machine
end

