-- ==== Sys2Proof/Machine/StateManager.lean ====
section
/-! DEFINITION. The state manager and twist engine (40_state_manager.md): InitState, Twist, and the command
`SEED`. -/

namespace Sys2Proof.Machine

/-- The word `InitState` writes at i from the word at i − 1, modulo 2^32 (R101). -/
def initNext (i : Nat) (prev : Word) : Word := seedMultiplier * (prev ^^^ (prev >>> 30)) + BitVec.ofNat 32 i

/-- One iteration of `InitState`, for i = k + 1 (R101). -/
def initStep (mt : Vector Word 624) (k : Nat) : Vector Word 624 := mtWrite mt (k + 1) (initNext (k + 1) (mtWord mt k))

/-- `InitState(seed)`: `mt[0] <- seed`, then i = 1 to 623 in order (R101). Irreducible, so that no proof unrolls the loop unasked. -/
@[irreducible] def initState (mt : Vector Word 624) (seed : Word) : Vector Word 624 := forUpTo initStep 623 (mtWrite mt 0 seed)

/-- The twist's y: bit 31 of word i and bits 30:0 of word i + 1 (R104). -/
def twistY (cur nxt : Word) : Word := (cur &&& upperMask) ||| (nxt &&& lowerMask)

/-- The word a twist step writes, from word i, word i + 1 and word i + 397 as the step reads them (R104). -/
def twistWord (cur nxt off : Word) : Word :=
  let y := twistY cur nxt
  let v := off ^^^ (y >>> 1)
  if y &&& 1 = 1 then v ^^^ matrixA else v

/-- Step i of the twist, in place: it reads the vector as steps 0 to i − 1 left it (R104, R106, R107; 90 C1). -/
def twistStep (mt : Vector Word 624) (i : Nat) : Vector Word 624 :=
  mtWrite mt i (twistWord (mtWord mt i) (mtWord mt (i + 1)) (mtWord mt (i + offsetM)))

/-- The 624 words a twist leaves (R104). Irreducible, as `initState` is. -/
@[irreducible] def twistWords (mt : Vector Word 624) : Vector Word 624 := forUpTo twistStep nWords mt

/-- `Twist()`: all 624 words in place, then `index <- 0` (R104, R108). -/
def twist (s : State) : State := (s.setMt (twistWords s.mt)).setIndex 0

/-- `SEED` (R100): InitState, `index <- 624`, `seeded <- 1`, response (OK, 0). -/
def execSeed (seed : Word) (s : State) : Host.Outcome State Fault Refusal :=
  .next ((((s.setMt (initState s.mt seed)).setIndex 624).setSeeded).respond codeOk 0)

end Sys2Proof.Machine
end

