-- ==== Sys2Proof/Machine/OutputTransform.lean ====
section
/-! DEFINITION. The output transform (41_output_transform.md): Temper, Draw32, and the commands `NEXT_U32`,
`NEXT_U64`, `NEXT_F32`, `NEXT_F64` and `NOP`. -/

namespace Sys2Proof.Machine

/-- `Temper(y)`, its four lines in order (R130). -/
def temper (y : Word) : Word :=
  let y := y ^^^ (y >>> 11)
  let y := y ^^^ ((y <<< 7) &&& temperMaskB)
  let y := y ^^^ ((y <<< 15) &&& temperMaskC)
  y ^^^ (y >>> 18)

/-- `if index == 624: Twist()`, the opening of `Draw32()` (R131). -/
def refill (s : State) : State := if s.index.val = nWords then twist s else s

/-- `Draw32()`: the tempered word at the cursor, and the state with the cursor moved on (R131). -/
def draw32 (s : State) : Word × State :=
  let s := refill s
  (temper (mtWord s.mt s.index.val), s.setIndex (s.index.val + 1))

/-- `NOP` (R148): response (OK, 0) and nothing else. -/
def execNop (s : State) : Host.Outcome State Fault Refusal := .next (s.respond codeOk 0)

/-- `NEXT_U32` of a seeded state: one draw in bits 31:0 (R132, R80). -/
def drawU32 (s : State) : State :=
  let d := draw32 s
  d.2.respond codeOk (zext64 d.1)

/-- `NEXT_U64` of a seeded state: two draws, the first in the high word (R135, R136). -/
def drawU64 (s : State) : State :=
  let a := draw32 s
  let b := draw32 a.2
  b.2.respond codeOk (joinWords a.1 b.1)

/-- `NEXT_F32` of a seeded state for a given `FLOAT32_METHOD`: one draw, converted (R142). -/
def drawF32 (m : Float32Method) (s : State) : State :=
  let d := draw32 s
  d.2.respond codeOk (zext64 (u32ToF32 m d.1))

/-- `NEXT_F64` of a seeded state for a given `F64_SOURCE`: one draw or two, converted (R146). -/
def drawF64 (src : F64Source) (s : State) : State :=
  match src with
  | .u32 =>
    let d := draw32 s
    d.2.respond codeOk (u32ToF64 d.1)
  | .u64 =>
    let a := draw32 s
    let b := draw32 a.2
    b.2.respond codeOk (u64ToF64 (joinWords a.1 b.1))

/-- `NEXT_U32` (R132). -/
def execNextU32 (s : State) : Host.Outcome State Fault Refusal := whenSeeded s drawU32

/-- `NEXT_U64` (R135). -/
def execNextU64 (s : State) : Host.Outcome State Fault Refusal := whenSeeded s drawU64

/-- `NEXT_F32` for a given `FLOAT32_METHOD` (R142). -/
def nextF32With (m : Float32Method) (s : State) : Host.Outcome State Fault Refusal := whenSeeded s (drawF32 m)

/-- `NEXT_F64` for a given `F64_SOURCE` (R146). -/
def nextF64With (src : F64Source) (s : State) : Host.Outcome State Fault Refusal := whenSeeded s (drawF64 src)

/-- `NEXT_F32` of this hardware (R142, R8). -/
def execNextF32 (s : State) : Host.Outcome State Fault Refusal := nextF32With hardware.float32Method s

/-- `NEXT_F64` of this hardware (R146, R9). -/
def execNextF64 (s : State) : Host.Outcome State Fault Refusal := nextF64With hardware.f64Source s

end Sys2Proof.Machine
end

