-- ==== Sys2Proof/Machine/Dispatch.lean ====
section
/-! DEFINITION. One arm per command, each one call of its meaning. -/

namespace Sys2Proof.Machine

def exec (i : Instr) (s : State) : Host.Outcome State Fault Refusal :=
  match i with
  | .nop => Sys2Proof.Machine.execNop s
  | .seed value => Sys2Proof.Machine.execSeed value s
  | .nextU32 => Sys2Proof.Machine.execNextU32 s
  | .nextU64 => Sys2Proof.Machine.execNextU64 s
  | .nextF32 => Sys2Proof.Machine.execNextF32 s
  | .nextF64 => Sys2Proof.Machine.execNextF64 s

end Sys2Proof.Machine
end

