-- ==== Sys2Proof/Machine/Ports.lean ====
section
/-! DEFINITION. The command and response ports and reset (R70 to R76, R200 to R202): what a rising edge of `clk`
does. The model is untimed (R211): an edge at which MTCORE is still computing is not a step, and a response is
offered from the edge after its command's acceptance (assumption 3). -/

namespace Sys2Proof.Machine

/-- All inputs low. -/
def idleSample : PortSample := ⟨false, false, 0, false⟩

/-- What the host drives at the coming edge: the head of its script, and all inputs low once that has ended
(assumption 2). -/
def State.pins (s : State) : PortSample := s.inputs.headD idleSample

/-- Output `cmd_ready`: no command outstanding and `rst == 0` (R72). -/
def State.cmdReady (s : State) : Bool := !s.pins.rst && s.rsp.isNone

/-- Output `rsp_valid`: a response is held and `rst == 0` (R76, R200). -/
def State.rspValid (s : State) : Bool := !s.pins.rst && s.rsp.isSome

/-- Outputs `rsp_code` and `rsp_data` while `rsp_valid` is 1. The spec gives their levels at no other time, and then
there is none here (assumption 10). -/
def State.rspOut (s : State) : Option Response := if s.rspValid then s.rsp else none

/-- Leaves the sampled edge behind. -/
def State.pastEdge (s : State) : State := { s with inputs := s.inputs.tail }

/-- A word joins the words of an offer once. -/
def addOffer (w : CmdWord) (ws : List CmdWord) : List CmdWord := if w ∈ ws then ws else ws ++ [w]

/-- At an edge that accepts nothing: an offer goes on while `cmd_valid` is 1 and ends when it is 0 (R71,
assumption 5). -/
def State.noteOffer (s : State) (p : PortSample) : State :=
  { s with offered := if p.cmdValid then addOffer p.cmdWord s.offered else [] }

/-- The reset state of R42, with whatever was outstanding cancelled and lost (R200, R201). The host's side of the
ports is not reset. -/
def State.hardReset (s : State) : State :=
  { s with mt := State.reset.mt, index := State.reset.index, seeded := State.reset.seeded,
           stickyErr := State.reset.stickyErr, rsp := State.reset.rsp }

/-- The response `r` passes to the host, and its command is no longer outstanding (R72, R76). -/
def State.deliver (s : State) (r : Response) : State := { s with rsp := none, taken := s.taken ++ [r] }

/-- The accepted word and the state its command starts from. A host that held `cmd_word` gets its word. For a host
that did not, it is one of the words it offered, and a free value says which (R71, assumption 4). -/
def State.accept (s : State) (p : PortSample) : CmdWord × State :=
  match addOffer p.cmdWord s.offered with
  | [w] => (w, { s with offered := [] })
  | ws  => (ws.getD (Config.offerChoice s.freeCount % ws.length) p.cmdWord,
            { s with offered := [], freeCount := s.freeCount + 1 })

/-- A reserved opcode, whether or not the state is seeded (R78, R172, R175). -/
def execIllegalOp (s : State) : Host.Outcome State Fault Refusal := cmdError codeIllegalOp s

/-- One accepted command word: its command, or ILLEGAL_OP (R84). -/
def runCommand (w : CmdWord) (s : State) : Host.Outcome State Fault Refusal :=
  match decode w with
  | some i => exec i s
  | none   => execIllegalOp s

/-- One rising edge of `clk`. Under `rst` the state becomes R42's (R200). Otherwise a held response is taken when
`rsp_ready` is 1 and held when it is 0 (R76). With none held, an offered command is accepted and runs (R71), and
with none offered nothing happens. -/
def risingEdge (s : State) : Host.Outcome State Fault Refusal :=
  let p := s.pins
  let s := s.pastEdge
  if p.rst then .next (s.noteOffer p).hardReset
  else match s.rsp with
    | some r => .next (if p.rspReady then (s.noteOffer p).deliver r else s.noteOffer p)
    | none   =>
      if p.cmdValid then
        let a := s.accept p
        runCommand a.1 a.2
      else .next (s.noteOffer p)

/-- The sample that offers a command word and takes no response. -/
def offerSample (w : CmdWord) : PortSample := ⟨false, true, w, false⟩

/-- The sample that offers nothing and takes a response. -/
def takeSample : PortSample := ⟨false, false, 0, true⟩

/-- A host's script for a program of command words: offer each and take its response. -/
def driveProgram : List CmdWord → List PortSample
  | []      => []
  | w :: ws => offerSample w :: takeSample :: driveProgram ws

/-- `repeat k { … }` of a host program: its body k times, on the host's side alone (R20, R83). -/
def repeatProgram (k : Nat) (body : List CmdWord) : List CmdWord := (List.replicate k body).flatten

/-- The state whose very next step accepts the word: nothing outstanding, no earlier offer, and the word offered at
the coming edge. -/
def placeWord (s : State) (w : CmdWord) : State :=
  { s with rsp := none, offered := [], inputs := offerSample w :: s.inputs.tail }

end Sys2Proof.Machine
end

