-- ==== Sys2Proof/Machine/Step.lean ====
section
/-! DEFINITION. The step, one rising edge of `clk`, and the placing of a command word for it. -/

namespace Sys2Proof.Machine

/-- One step: one rising edge of `clk` (Machine/Ports.lean). -/
def step (s : State) : Host.Outcome State Fault Refusal := risingEdge s

/-- The state whose very next step runs the command word given as table bits (assumption 2). -/
def State.withFetchWord (s : State) (nbits w : Nat) : State := placeWord s (tableWord nbits w)

end Sys2Proof.Machine
end

