-- ==== Sys2Proof/Machine/Assembler.lean ====
section
/-! DEFINITION. The assembler notation of R81 to R83, from a program's lines to its command words. A line is a list
of characters. Spacing, letter case and digit forms are assumption 11. -/

namespace Sys2Proof.Machine

/-- Why the assembler refuses a line. -/
inductive AsmReason where
  /-- The first token is no mnemonic of R81 and not `.cmd`, or more tokens follow than an operand. Safe. -/
  | notAStatement
  /-- The operand is neither a decimal nor a `0x` number. Safe. -/
  | notALiteral
  /-- The statement is not well formed: a literal out of range, or an operand missing or not allowed (R82). Safe. -/
  | notWellFormed
  deriving DecidableEq, Repr

/-- The line up to a `;` (R81). -/
def dropComment (line : List Char) : List Char := line.takeWhile (· != ';')

/-- The tokens of a line, parted by spaces and tabs. -/
def tokens : List Char → List (List Char)
  | [] => []
  | c :: cs =>
    if c = ' ' ∨ c = '\t' then tokens cs
    else match cs with
      | [] => [[c]]
      | d :: _ =>
        if d = ' ' ∨ d = '\t' then [c] :: tokens cs
        else match tokens cs with
          | []      => [[c]]
          | t :: ts => (c :: t) :: ts

/-- A digit's value, below 16. -/
def digitValue (c : Char) : Option Nat :=
  if '0' ≤ c ∧ c ≤ '9' then some (c.toNat - '0'.toNat)
  else if 'a' ≤ c ∧ c ≤ 'f' then some (c.toNat - 'a'.toNat + 10)
  else if 'A' ≤ c ∧ c ≤ 'F' then some (c.toNat - 'A'.toNat + 10)
  else none

/-- The digits after those read so far, in the given base. -/
def readDigits (base : Nat) : Nat → List Char → Option Nat
  | acc, []      => some acc
  | acc, c :: cs =>
    match digitValue c with
    | some v => if v < base then readDigits base (acc * base + v) cs else none
    | none   => none

/-- A decimal number or a `0x` hexadecimal number (R81). -/
def readNumber : List Char → Option Nat
  | []                    => none
  | ['0', 'x']            => none
  | '0' :: 'x' :: c :: cs => readDigits 16 0 (c :: cs)
  | c :: cs               => readDigits 10 0 (c :: cs)

/-- A literal with its sign. R82 has the assembler refuse a negative one. DESIGN CHOICE (assumption 11): a signed zero
is the number 0, so it is not negative and is taken. -/
def readLiteral : List Char → Option Int
  | '-' :: cs => (readNumber cs).map fun n => -(n : Int)
  | cs        => (readNumber cs).map fun n => (n : Int)

/-- The mnemonics of R81, as written. -/
def readMnemonic (t : List Char) : Option Mnemonic :=
  if t = ['N', 'O', 'P'] then some .nop
  else if t = ['S', 'E', 'E', 'D'] then some .seed
  else if t = ['N', 'E', 'X', 'T', '_', 'U', '3', '2'] then some .nextU32
  else if t = ['N', 'E', 'X', 'T', '_', 'U', '6', '4'] then some .nextU64
  else if t = ['N', 'E', 'X', 'T', '_', 'F', '3', '2'] then some .nextF32
  else if t = ['N', 'E', 'X', 'T', '_', 'F', '6', '4'] then some .nextF64
  else none

/-- One line's statement, if it holds one (R81). -/
def parseLine (line : List Char) : Except AsmReason (Option AsmStmt) :=
  match tokens (dropComment line) with
  | [] => .ok none
  | [t] =>
    match readMnemonic t with
    | some m => .ok (some (.op m none))
    | none   => .error .notAStatement
  | [t, l] =>
    if t = ['.', 'c', 'm', 'd'] then
      match readLiteral l with
      | some v => .ok (some (.rawCmd v))
      | none   => .error .notALiteral
    else
      match readMnemonic t, readLiteral l with
      | some m, some v => .ok (some (.op m (some v)))
      | some _, none   => .error .notALiteral
      | none, _        => .error .notAStatement
  | _ => .error .notAStatement

/-- One line's command word, if it holds a statement: one statement is one word (R83). -/
def assembleLine (line : List Char) : Except AsmReason (Option CmdWord) :=
  match parseLine line with
  | .ok none     => .ok none
  | .ok (some a) =>
    match assemble a with
    | some w => .ok (some w)
    | none   => .error .notWellFormed
  | .error e     => .error e

/-- A program's command words, or the number of the first line refused (counted from `n`) and why (R82; which line
is named is assumption 11). -/
def assembleFrom (n : Nat) : List (List Char) → Except (Nat × AsmReason) (List CmdWord)
  | [] => .ok []
  | l :: ls =>
    match assembleLine l, assembleFrom (n + 1) ls with
    | .error e, _            => .error (n, e)
    | .ok _, .error e        => .error e
    | .ok none, .ok ws       => .ok ws
    | .ok (some w), .ok ws   => .ok (w :: ws)

/-- A program's command words, lines numbered from 1 (assumption 11). -/
def assembleProgram (lines : List (List Char)) : Except (Nat × AsmReason) (List CmdWord) := assembleFrom 1 lines

end Sys2Proof.Machine
end

