-- ==== Sys2Proof/Safety.lean ====
section
/-! DEFINITION. The terms the claims are stated in: the invariant, what a host can tell apart, runs of commands, and
IEEE 754 rounding said independently of the converter. -/

namespace Sys2Proof.Machine

/-- A response MTCORE may give: the code is not the reserved 3, and with any code but OK the data is 0 (R75). -/
def Response.Legal (r : Response) : Prop := r.code ≠ 3 ∧ (r.code ≠ codeOk → r.data = 0)

/-- What every step keeps. In a seeded state the cursor is in [1, 624] (R43). Responses held and taken are legal (R75).
The words of an offer are recorded once each. -/
def State.Inv (s : State) : Prop :=
  (s.seeded = true → 1 ≤ s.index.val) ∧ (∀ r, s.rsp = some r → r.Legal) ∧ (∀ r ∈ s.taken, r.Legal) ∧ s.offered.Nodup

/-- Two states that differ at most in `mt` and `index`, and in those only while unseeded (R42, R43). -/
def State.SameToHost (s t : State) : Prop :=
  s.seeded = t.seeded ∧ s.stickyErr = t.stickyErr ∧ s.rsp = t.rsp ∧ s.inputs = t.inputs ∧ s.offered = t.offered ∧
    s.taken = t.taken ∧ s.freeCount = t.freeCount ∧ (s.seeded = true → s.mt = t.mt ∧ s.index = t.index)

/-- One command word run and its response taken, as one transition (R56). -/
def serve (s : State) (w : CmdWord) : State :=
  match runCommand w s with
  | .next t =>
    match t.rsp with
    | some r => t.deliver r
    | none   => t
  | _ => s

/-- The composition of the commands' transitions in order (R58). -/
def serveAll (s : State) (ws : List CmdWord) : State := ws.foldl serve s

/-- The same command n times, responses not looked at. -/
def repeatExec (i : Instr) : Nat → State → Host.Outcome State Fault Refusal
  | 0, s     => .next s
  | n + 1, s =>
    match repeatExec i n s with
    | .next t    => exec i t
    | .fault r   => .fault r
    | .refused r => .refused r

/-- k steps of the machine, stopping at the first that answers no next state. -/
def runSteps : Nat → State → Host.Outcome State Fault Refusal
  | 0, s     => .next s
  | k + 1, s =>
    match step s with
    | .next t    => runSteps k t
    | .fault r   => .fault r
    | .refused r => .refused r

/-- The command word the coming edge accepts, if it accepts one (R71). -/
def State.acceptedWord (s : State) : Option CmdWord :=
  if s.cmdReady && s.pins.cmdValid then some (s.accept s.pins).1 else none

/-- The command words a run of k steps accepts, in order. -/
def acceptedWords : Nat → State → List CmdWord
  | 0, _     => []
  | k + 1, s =>
    s.acceptedWord.toList ++
      match step s with
      | .next t => acceptedWords k t
      | _       => []

/-- The value of a finite non-negative bit pattern of an IEEE 754 binary format (R18). -/
def FloatFormat.value (f : FloatFormat) (bits : Nat) : ℚ :=
  if bits / 2 ^ f.fracBits = 0 then
    (bits % 2 ^ f.fracBits : Nat) * (2 : ℚ) ^ (1 - (f.bias : ℤ) - (f.fracBits : ℤ))
  else
    (2 ^ f.fracBits + bits % 2 ^ f.fracBits : Nat) *
      (2 : ℚ) ^ ((bits / 2 ^ f.fracBits : Nat) - (f.bias : ℤ) - (f.fracBits : ℤ))

/-- `bits` is the finite value of `f` nearest to q, and of two equally near the one with the even significand
(R18). -/
def FloatFormat.IsNearest (f : FloatFormat) (q : ℚ) (bits : Nat) : Prop :=
  bits < f.infBits ∧
    ∀ c, c < f.infBits → c ≠ bits →
      |f.value bits - q| < |f.value c - q| ∨ (|f.value bits - q| = |f.value c - q| ∧ bits % 2 = 0)

/-- `bits` is nearer to q than every other finite value of `f`: no tie arises (R141). -/
def FloatFormat.IsStrictlyNearest (f : FloatFormat) (q : ℚ) (bits : Nat) : Prop :=
  bits < f.infBits ∧ ∀ c, c < f.infBits → c ≠ bits → |f.value bits - q| < |f.value c - q|

end Sys2Proof.Machine
end

