-- ==== Sys2Proof/Certificates/Slice0/Obligations.lean ====
section
/-! DEFINITION. The statements for the provers, each from the numbered rules its docstring names. -/

open Sys2Proof Sys2Proof.Machine

/-! ### Encoding -/

/-- R77, R81: the written words of the six commands, and the lowest and highest reserved ones. -/
def Obligations.WrittenWordsDecodeAsWritten : Prop :=
  decode 0x0000000000 = some .nop ∧ decode 0x0100000001 = some (.seed 1) ∧
    decode 0x01FFFFFFFF = some (.seed 0xFFFFFFFF) ∧ decode 0x0200000000 = some .nextU32 ∧
    decode 0x0300000000 = some .nextU64 ∧ decode 0x0400000000 = some .nextF32 ∧
    decode 0x0500000000 = some .nextF64 ∧ decode 0x02FFFFFFFF = some .nextU32 ∧ decode 0x0600000000 = none ∧
    decode 0xFF00000000 = none

/-- R73, R74, R77, R84: decoding reads back every command that is encoded, and a word decodes to a command exactly
when its `OP` is that command's and, for `SEED`, its `DATA` is the seed. -/
def Obligations.DecodeInvertsEncode : Prop :=
  (∀ i, decode (encode i) = some i) ∧
    ∀ w i, decode w = some i ↔ cmdOp w = opcode i ∧ ∀ v, i = .seed v → cmdData w = v

/-- R78, R84: the words with no command are those whose `OP` is 0x06 to 0xFF, 250 opcodes. -/
def Obligations.ReservedOpcodesAreSixToFF : Prop :=
  (∀ w, decode w = none ↔ 6 ≤ (w >>> 32).toNat) ∧
    ((List.range 256).filter fun op => decode (BitVec.ofNat 40 (op * 2 ^ 32)) = none).length = 250

/-- R74: `DATA` is the seed of `SEED`, as it stands, and changes nothing for any other opcode. The assembler writes
`DATA = 0` for the others. -/
def Obligations.DataMattersToSeedAlone : Prop :=
  (∀ v : Word, decode (commandWord 0x01 v) = some (.seed v)) ∧
    (∀ (op : BitVec 8) (d e : Word) (s : State), op ≠ 1 →
      runCommand (commandWord op d) s = runCommand (commandWord op e) s) ∧
    ∀ m, m ≠ .seed → ∃ w, assemble (.op m none) = some w ∧ cmdData w = 0

/-- R82: the assembler writes the word of a statement whose literal is in range, and refuses every other: it never
truncates. -/
def Obligations.AssemblerNeverTruncates : Prop :=
  (∀ v : Int, assemble (.op .seed (some v)) =
      if 0 ≤ v ∧ v ≤ 2 ^ 32 - 1 then some (BitVec.ofNat 40 (2 ^ 32 + v.toNat)) else none) ∧
    assemble (.op .seed none) = none ∧
    (∀ m, m ≠ .seed → ∀ v, assemble (.op m (some v)) = none) ∧
    ∀ v : Int, assemble (.rawCmd v) =
      if 0 ≤ v ∧ v ≤ 2 ^ 40 - 1 then some (BitVec.ofNat 40 v.toNat) else none

/-- R81, R83: the table of R81, as lines and as statements. A mnemonic's statement assembles to one word, and that word
decodes to the mnemonic's command. -/
def Obligations.AssembledWordDecodesToItsMnemonic : Prop :=
  (assemble (.op .nop none) = some 0x0000000000 ∧ assemble (.op .seed (some 1)) = some 0x0100000001 ∧
      assemble (.op .seed (some 0xFFFFFFFF)) = some 0x01FFFFFFFF ∧ assemble (.op .nextU32 none) = some 0x0200000000 ∧
      assemble (.op .nextU64 none) = some 0x0300000000 ∧ assemble (.op .nextF32 none) = some 0x0400000000 ∧
      assemble (.op .nextF64 none) = some 0x0500000000 ∧ assemble (.rawCmd 0x0600000000) = some 0x0600000000) ∧
    (assembleLine "NOP".toList = .ok (some 0x0000000000) ∧ assembleLine "SEED 1".toList = .ok (some 0x0100000001) ∧
      assembleLine "SEED 0xFFFFFFFF".toList = .ok (some 0x01FFFFFFFF) ∧
      assembleLine "NEXT_U32".toList = .ok (some 0x0200000000) ∧
      assembleLine "NEXT_U64".toList = .ok (some 0x0300000000) ∧
      assembleLine "NEXT_F32".toList = .ok (some 0x0400000000) ∧
      assembleLine "NEXT_F64".toList = .ok (some 0x0500000000) ∧
      assembleLine ".cmd 0x0600000000".toList = .ok (some 0x0600000000)) ∧
    ∀ m operand w, assemble (.op m operand) = some w → decode w = some (m.instr (BitVec.ofInt 32 (operand.getD 0)))

/-- R82: the assembler refuses a program naming a line it refuses. That lines are numbered from 1, and that of several
bad lines the first is named, is the model's choice (assumption 11), as are the lexical details of a line. R83: each
line it takes gives at most one word. -/
def Obligations.AssemblerNamesTheFirstBadLine : Prop :=
  (∀ lines n e, assembleProgram lines = .error (n, e) →
      ∃ before line after, lines = before ++ line :: after ∧ n = before.length + 1 ∧ assembleLine line = .error e ∧
        ∀ l ∈ before, ∃ w, assembleLine l = .ok w) ∧
    ∀ lines ws, assembleProgram lines = .ok ws →
      ∃ outs : List (Option CmdWord), lines.map assembleLine = outs.map Except.ok ∧ ws = outs.filterMap id

/-! ### Ports, reset and status -/

/-- R71, R84: an edge that accepts a word with a command runs that command. The edge is left behind and the offer
ends; nothing else is added to the command's own effect. -/
def Obligations.StepRunsTheAcceptedCommand : Prop :=
  ∀ (s : State) (w : CmdWord) (ready : Bool) (rest : List PortSample) (i : Instr),
    s.rsp = none → s.offered = [] ∨ s.offered = [w] → s.inputs = ⟨false, true, w, ready⟩ :: rest →
      decode w = some i → step s = exec i { s with inputs := rest, offered := [] }

/-- R172, R175, R78: an accepted word whose `OP` is 0x06 to 0xFF is answered ILLEGAL_OP, seeded or not, and sets
`sticky_err` and nothing else of R30. -/
def Obligations.ReservedOpcodeIsAnsweredIllegalOp : Prop :=
  ∀ (s : State) (w : CmdWord) (ready : Bool) (rest : List PortSample),
    s.rsp = none → s.offered = [] ∨ s.offered = [w] → s.inputs = ⟨false, true, w, ready⟩ :: rest →
      6 ≤ (w >>> 32).toNat →
        step s = .next { s with inputs := rest, offered := [], stickyErr := true, rsp := some ⟨1, 0⟩ }

/-- The host's placing of a word: the very next step runs its command (assumption 2). -/
def Obligations.PlacedWordRunsNext : Prop :=
  ∀ (s : State) (w : Nat) (i : Instr), decodeTableWord 40 w = some i →
    ∃ t, step (s.withFetchWord 40 w) = exec i t ∧ t.mt = s.mt ∧ t.index = s.index ∧ t.seeded = s.seeded ∧
      t.stickyErr = s.stickyErr ∧ t.taken = s.taken

/-- R71: whichever word an edge accepts is one the host offered in this offer, and it is the offered word of a host
that held it, for every value of the free choice (assumption 4). An edge that accepts nothing ends the offer when
`cmd_valid` is 0, and otherwise adds `cmd_word` to its words and nothing else (assumption 5). -/
def Obligations.AcceptedWordWasOffered : Prop :=
  (∀ s : State, s.pins.rst = false → s.rsp = none → s.pins.cmdValid = true →
    ∃ w n, s.acceptedWord = some w ∧ (w = s.pins.cmdWord ∨ w ∈ s.offered) ∧
      ((∀ x ∈ s.offered, x = s.pins.cmdWord) → w = s.pins.cmdWord) ∧
      step s = runCommand w { s with inputs := s.inputs.tail, offered := [], freeCount := n }) ∧
    ∀ s : State, s.cmdReady = false ∨ s.pins.cmdValid = false →
      s.acceptedWord = none ∧ ∃ t, step s = .next t ∧ (s.pins.cmdValid = false → t.offered = []) ∧
        (s.pins.cmdValid = true → ∀ x, x ∈ t.offered ↔ x ∈ s.offered ∨ x = s.pins.cmdWord)

/-- R72, R71: `cmd_ready` is 1 exactly when no command is outstanding and `rst` is 0, and an edge at which
`cmd_valid` or `cmd_ready` is 0 and `rst` is 0 accepts nothing: the four rows of R30 stay as they are (R185). With no
response held such an edge makes none up (R76): it leaves the sampled edge and an offer behind, and nothing else
changes. -/
def Obligations.StateIsHeldBetweenCommands : Prop :=
  (∀ s : State, s.cmdReady = true ↔ s.rsp = none ∧ s.pins.rst = false) ∧
    (∀ s : State, s.pins.rst = false → s.cmdReady = false ∨ s.pins.cmdValid = false →
      ∃ t, step s = .next t ∧ t.mt = s.mt ∧ t.index = s.index ∧ t.seeded = s.seeded ∧ t.stickyErr = s.stickyErr) ∧
    ∀ s : State, s.pins.rst = false → s.rsp = none → s.pins.cmdValid = false →
      ∃ t, step s = .next t ∧ t.rsp = none ∧ t.taken = s.taken ∧
        t = { s with inputs := s.inputs.tail, offered := [] }

/-- R76: a held response stays on the ports, unchanged, until the edge at which `rsp_ready` is 1, and then passes to
the host after all earlier ones. -/
def Obligations.ResponseIsHeldUntilTaken : Prop :=
  ∀ (s : State) (r : Response), s.pins.rst = false → s.rsp = some r →
    s.rspOut = some r ∧
      (s.pins.rspReady = false → ∃ t, step s = .next t ∧ t.rsp = some r ∧ t.taken = s.taken) ∧
      (s.pins.rspReady = true → ∃ t, step s = .next t ∧ t.rsp = none ∧ t.taken = s.taken ++ [r])

/-- R76, R210: every accepted command, whatever its word, is answered at once by one legal response (R75), and takes
none from the host's record. -/
def Obligations.EveryAcceptedCommandIsAnswered : Prop :=
  ∀ s : State, s.cmdReady = true → s.pins.cmdValid = true →
    ∃ t r, step s = .next t ∧ t.rsp = some r ∧ t.taken = s.taken ∧ r.code ≠ 3 ∧ (r.code ≠ 0 → r.data = 0)

/-- R200, R201: an edge under `rst` takes any state to R42's and cancels whatever was outstanding, whose response is
never delivered. While `rst` is 1 no command is accepted and no response is offered. -/
def Obligations.ResetCancelsAndClears : Prop :=
  ∀ s : State, s.pins.rst = true →
    s.cmdReady = false ∧ s.rspValid = false ∧
      ∃ t, step s = .next t ∧ t.seeded = false ∧ t.stickyErr = false ∧ t.rsp = none ∧ t.taken = s.taken

/-- R34: `seeded` is set by a `SEED` command and by nothing else, and cleared by reset and by nothing else. A draw
command refuses to run when it is 0. That every edge under `rst` clears it, and not only the first edge after, is
assumption 12. -/
def Obligations.SeededMeansSeedSinceReset : Prop :=
  (∀ (w : CmdWord) (s t : State), runCommand w s = .next t →
      (t.seeded = true ↔ s.seeded = true ∨ cmdOp w = 0x01)) ∧
    (∀ s : State, s.pins.rst = true → ∃ t, step s = .next t ∧ t.seeded = false) ∧
    (∀ s t : State, step s = .next t → s.seeded = true → t.seeded = false → s.pins.rst = true) ∧
    ∀ (i : Instr) (s t : State), i = .nextU32 ∨ i = .nextU64 ∨ i = .nextF32 ∨ i = .nextF64 → s.seeded = false →
      exec i s = .next t → t.rsp = some ⟨2, 0⟩ ∧ t.mt = s.mt ∧ t.index = s.index

/-- R35: `sticky_err` is set by every command that ends in an error response and by no other. No command clears it,
and only reset does. That every edge under `rst` clears it, and not only the first edge after, is assumption 12. -/
def Obligations.StickyErrRecordsErrors : Prop :=
  (∀ (w : CmdWord) (s t : State), runCommand w s = .next t →
      ∃ r, t.rsp = some r ∧ (t.stickyErr = true ↔ s.stickyErr = true ∨ r.code ≠ 0)) ∧
    (∀ s : State, s.pins.rst = true → ∃ t, step s = .next t ∧ t.stickyErr = false) ∧
    ∀ s t : State, step s = .next t → s.stickyErr = true → t.stickyErr = false → s.pins.rst = true

/-- R36: STATUS bit 0 is `seeded`, bit 1 is `sticky_err`, and bits 31:2 read as 0. The port shows bits 1:0. All are 0
after reset, and a command's writes to the flags show from its response on. -/
def Obligations.StatusShowsTheFlags : Prop :=
  (∀ s : State, s.statusWord.getLsbD 0 = s.seeded ∧ s.statusWord.getLsbD 1 = s.stickyErr ∧
      (∀ k, 2 ≤ k → s.statusWord.getLsbD k = false) ∧ s.statusPort = s.statusWord.setWidth 2) ∧
    State.reset.statusWord = 0 ∧
    ∀ (w : CmdWord) (s : State), ∃ t r, runCommand w s = .next t ∧ t.rsp = some r ∧
      t.statusPort.getLsbD 0 = (s.seeded || cmdOp w == 0x01) ∧ t.statusPort.getLsbD 1 = (s.stickyErr || r.code != 0)

/-- R202: after reset `cmd_ready` is 1 and any command is accepted. `SEED` and `NOP` are answered OK, a draw
NOT_SEEDED, and a reserved opcode ILLEGAL_OP. The flags are 0 and no response is pending (R42). -/
def Obligations.ResetLeavesThePortReady : Prop :=
  State.reset.seeded = false ∧ State.reset.stickyErr = false ∧ State.reset.rspValid = false ∧
    State.reset.cmdReady = true ∧
    ∀ (w : CmdWord) (ready : Bool) (rest : List PortSample), ∃ t,
      step { State.reset with inputs := ⟨false, true, w, ready⟩ :: rest } = .next t ∧
        t.rsp = some ⟨if 6 ≤ (cmdOp w).toNat then 1 else if 2 ≤ (cmdOp w).toNat then 2 else 0, 0⟩

/-! ### Errors -/

/-- R174, R175: the complete list of errors. A reserved opcode is ILLEGAL_OP always, a draw is NOT_SEEDED exactly
when unseeded, and everything else is OK. An error sets `sticky_err`. -/
def Obligations.ErrorsAreExactlyTheListed : Prop :=
  ∀ (w : CmdWord) (s : State), ∃ t d,
    let code : BitVec 2 := if 6 ≤ (cmdOp w).toNat then 1 else if 2 ≤ (cmdOp w).toNat ∧ s.seeded = false then 2 else 0
    runCommand w s = .next t ∧ t.rsp = some ⟨code, d⟩ ∧ (code ≠ 0 → t.stickyErr = true)

/-- R171, R176: a command that ends in an error response sets `sticky_err`, responds with data 0, and writes nothing
else. -/
def Obligations.ErrorsChangeNothingElse : Prop :=
  ∀ (w : CmdWord) (s t : State) (r : Response), runCommand w s = .next t → t.rsp = some r → r.code ≠ 0 →
    t = { s with stickyErr := true, rsp := some ⟨r.code, 0⟩ }

/-- R173: each of the four draw commands, under every `FLOAT32_METHOD` and `F64_SOURCE`, is refused with NOT_SEEDED
while `seeded` is 0, and draws nothing. `SEED` and `NOP` never are. -/
def Obligations.DrawBeforeSeedIsRefused : Prop :=
  (∀ s : State, s.seeded = false →
    let refused := Host.Outcome.next (φ := Fault) (ρ := Refusal) { s with stickyErr := true, rsp := some ⟨2, 0⟩ }
    exec .nextU32 s = refused ∧ exec .nextU64 s = refused ∧ exec .nextF32 s = refused ∧ exec .nextF64 s = refused ∧
      (∀ m, nextF32With m s = refused) ∧ ∀ src, nextF64With src s = refused) ∧
    ∀ (i : Instr) (s : State), i = .nop ∨ (∃ v, i = .seed v) → ∃ t, exec i s = .next t ∧ t.rsp = some ⟨0, 0⟩

/-- R170: every seed is valid and every draw from a seeded state succeeds. That every command on every state responds,
and that every step answers a next state, is assumption 13, from R76, R84 and R210. -/
def Obligations.NothingStops : Prop :=
  (∀ v s, ∃ t, exec (.seed v) s = .next t ∧ t.rsp = some ⟨0, 0⟩) ∧
    (∀ i s, s.seeded = true → ∃ t d, exec i s = .next t ∧ t.rsp = some ⟨0, d⟩) ∧
    (∀ i s, ∃ t r, exec i s = .next t ∧ t.rsp = some r) ∧ ∀ s, ∃ t, step s = .next t

/-! ### The state manager -/

/-- R100, R101: a word whose `OP` is 0x01 is `SEED` with its `DATA`. `SEED` completes on every state. It leaves
`mt[0]` the seed and each later word by the recurrence modulo 2^32, `index = 624`, `seeded = 1`, and the response
(OK, 0), and changes nothing else. -/
def Obligations.SeedWritesTheRecurrence : Prop :=
  (∀ w : CmdWord, cmdOp w = 0x01 → decode w = some (.seed (cmdData w))) ∧
    ∀ (v : Word) (s : State), ∃ m : Vector Word 624,
      exec (.seed v) s = .next { s with mt := m, index := 624, seeded := true, rsp := some ⟨0, 0⟩ } ∧
        mtWord m 0 = v ∧
        ∀ i, 1 ≤ i → i ≤ 623 →
          mtWord m i = 1812433253 * (mtWord m (i - 1) ^^^ (mtWord m (i - 1) >>> 30)) + BitVec.ofNat 32 i

/-- R103: the state after `SEED s` depends on s alone, and so do the responses to whatever commands follow it. -/
def Obligations.SeedForgetsTheOldStream : Prop :=
  ∀ (v : Word) (s s' : State),
    (∃ t t', exec (.seed v) s = .next t ∧ exec (.seed v) s' = .next t' ∧
      t.mt = t'.mt ∧ t.index = t'.index ∧ t.seeded = t'.seeded ∧ t.rsp = t'.rsp) ∧
    ∀ ws : List CmdWord, ∃ rs : List Response,
      (serveAll s (encode (.seed v) :: ws)).taken = s.taken ++ rs ∧
        (serveAll s' (encode (.seed v) :: ws)).taken = s'.taken ++ rs

/-- R104, R106, R107, R108: the words a twist leaves, from the words before it. The offset word is an old one for
i in [0, 226] and an already rewritten one for i in [227, 623]; word 623 takes its neighbour from the rewritten
word 0. A twist ends with `index = 0` and writes nothing else. -/
def Obligations.TwistLeavesTheInPlaceWords : Prop :=
  (∀ s : State, twist s = { s with mt := twistWords s.mt, index := 0 }) ∧
    ∀ m : Vector Word 624,
      let mix := fun (cur nxt off : Word) =>
        let y := (cur &&& 0x80000000) ||| (nxt &&& 0x7fffffff)
        off ^^^ (y >>> 1) ^^^ (if y.getLsbD 0 = true then (0x9908b0df : Word) else 0)
      (∀ i, i ≤ 226 → mtWord (twistWords m) i = mix (mtWord m i) (mtWord m (i + 1)) (mtWord m (i + 397))) ∧
        (∀ i, 227 ≤ i → i ≤ 622 →
          mtWord (twistWords m) i = mix (mtWord m i) (mtWord m (i + 1)) (mtWord (twistWords m) (i - 227))) ∧
        mtWord (twistWords m) 623 =
          mix (mtWord m 623) (mtWord (twistWords m) 0) (mtWord (twistWords m) 396)

/-- R110: a twist reads only bit 31 of the word `mt[0]` had before the pass. -/
def Obligations.TwistReadsOnlyBit31OfWordZero : Prop :=
  ∀ a b : Vector Word 624, (mtWord a 0).getLsbD 31 = (mtWord b 0).getLsbD 31 →
    (∀ i, 1 ≤ i → i ≤ 623 → mtWord a i = mtWord b i) → twistWords a = twistWords b

/-- R31, R105: no command but `SEED` writes `mt` except by one twist, and a twist runs only in a draw that meets
`index = 624`: the first draw, or the second draw of a two-draw command that starts at 623. -/
def Obligations.OnlySeedAndTwistWriteMt : Prop :=
  ∀ (i : Instr) (s t : State), exec i s = .next t → (∀ v, i ≠ .seed v) →
    (t.mt = s.mt ∧ (s.index = 624 → t = { s with rsp := t.rsp, stickyErr := t.stickyErr })) ∨
      (t.mt = twistWords s.mt ∧ s.seeded = true ∧ i ≠ .nop ∧
        (s.index = 624 ∨ (s.index = 623 ∧ i = .nextU64)))

/-- R102: seeding that twists at once and leaves `index = 0` gives the same draws as seeding that leaves the first
twist to the first draw. -/
def Obligations.EagerFirstTwistIsNotSeen : Prop :=
  ∀ (s : State) (i : Instr), s.seeded = true → i = .nextU32 ∨ i = .nextU64 ∨ i = .nextF32 ∨ i = .nextF64 →
    exec i { s with mt := twistWords s.mt, index := 0 } = exec i { s with index := 624 }

/-! ### The output transform -/

/-- R130: tempering is its four lines, each on what the line before left. -/
def Obligations.TemperRunsItsFourLines : Prop :=
  ∀ y : Word, ∃ a b c : Word,
    a = y ^^^ (y >>> 11) ∧ b = a ^^^ ((a <<< 7) &&& 0x9d2c5680) ∧ c = b ^^^ ((b <<< 15) &&& 0xefc60000) ∧
      temper y = c ^^^ (c >>> 18)

/-- R133: tempering is a bijection that keeps 0, so two words of one generation give equal draws exactly when they
are equal. -/
def Obligations.TemperIsABijection : Prop :=
  Function.Bijective temper ∧ temper 0 = 0 ∧ ∀ y z, temper y = temper z ↔ y = z

/-- R131: a draw twists exactly when `index = 624`, returns the tempered word at the cursor, and leaves `index` one
further, in [1, 624]. It writes `mt` and `index` and nothing else. -/
def Obligations.DrawTakesTheWordAtTheCursor : Prop :=
  ∀ s : State,
    (s.index = 624 → draw32 s = (temper (mtWord (twistWords s.mt) 0), { s with mt := twistWords s.mt, index := 1 })) ∧
      (s.index ≠ 624 → draw32 s = (temper (mtWord s.mt s.index.val), { s with index := s.index + 1 })) ∧
      1 ≤ (draw32 s).2.index.val ∧ (draw32 s).2.index.val ≤ 624

/-- R132: a word whose `OP` is 0x02 is `NEXT_U32`. It completes on every seeded state with the next tempered word,
below `index = 624` and at it, and is refused with NOT_SEEDED on every other. -/
def Obligations.NextU32ReturnsTheNextWord : Prop :=
  (∀ w : CmdWord, cmdOp w = 0x02 → decode w = some .nextU32) ∧
    (∀ s : State, s.seeded = true →
      (s.index = 624 → exec .nextU32 s = .next { s with
        mt := twistWords s.mt, index := 1, rsp := some ⟨0, (temper (mtWord (twistWords s.mt) 0)).setWidth 64⟩ }) ∧
      (s.index ≠ 624 → exec .nextU32 s = .next { s with
        index := s.index + 1, rsp := some ⟨0, (temper (mtWord s.mt s.index.val)).setWidth 64⟩ })) ∧
    ∀ s : State, s.seeded = false → exec .nextU32 s = .next { s with stickyErr := true, rsp := some ⟨2, 0⟩ }

/-- R135, R136, R138: a word whose `OP` is 0x03 is `NEXT_U64`. It completes on every seeded state. It leaves the state
two `NEXT_U32` would leave, and returns their results, the first in bits 63:32. It is refused with NOT_SEEDED on every
other state. -/
def Obligations.NextU64IsTwoNextU32 : Prop :=
  (∀ w : CmdWord, cmdOp w = 0x03 → decode w = some .nextU64) ∧
    (∀ s : State, s.seeded = true → ∃ (a b : Word) (t u : State),
      exec .nextU32 s = .next t ∧ t.rsp = some ⟨0, a.setWidth 64⟩ ∧
        exec .nextU32 t = .next u ∧ u.rsp = some ⟨0, b.setWidth 64⟩ ∧
        exec .nextU64 s = .next { u with rsp := some ⟨0, (a ++ b : BitVec (32 + 32))⟩ }) ∧
    ∀ s : State, s.seeded = false → exec .nextU64 s = .next { s with stickyErr := true, rsp := some ⟨2, 0⟩ }

/-- R137: from `index = 623` the high word is the last of one generation and the low word the first of the next,
leaving `index = 1`; from `index = 624` the first draw twists and the second does not, leaving `index = 2`. -/
def Obligations.NextU64MayStraddleATwist : Prop :=
  ∀ s : State, s.seeded = true →
    (s.index = 623 → exec .nextU64 s = .next { s with
      mt := twistWords s.mt, index := 1,
      rsp := some ⟨0, (temper (mtWord s.mt 623) ++ temper (mtWord (twistWords s.mt) 0) : BitVec (32 + 32))⟩ }) ∧
    (s.index = 624 → exec .nextU64 s = .next { s with
      mt := twistWords s.mt, index := 2,
      rsp := some ⟨0, (temper (mtWord (twistWords s.mt) 0) ++ temper (mtWord (twistWords s.mt) 1) :
        BitVec (32 + 32))⟩ })

/-- R142, R8: a word whose `OP` is 0x04 is `NEXT_F32`. It completes on every seeded state with one draw, and responds
with the binary32 of that draw in bits 31:0, under each `FLOAT32_METHOD`. This hardware takes SINGLE_ROUNDING. It is
refused with NOT_SEEDED on every other state. -/
def Obligations.NextF32ConvertsOneDraw : Prop :=
  (∀ w : CmdWord, cmdOp w = 0x04 → decode w = some .nextF32) ∧
    (∀ s : State, s.seeded = true → ∃ (x : Word) (t : State),
      exec .nextU32 s = .next t ∧ t.rsp = some ⟨0, x.setWidth 64⟩ ∧
        exec .nextF32 s = .next { t with rsp := some ⟨0, (u32ToF32 .singleRounding x).setWidth 64⟩ } ∧
        ∀ m, nextF32With m s = .next { t with rsp := some ⟨0, (u32ToF32 m x).setWidth 64⟩ }) ∧
    ∀ s : State, s.seeded = false → exec .nextF32 s = .next { s with stickyErr := true, rsp := some ⟨2, 0⟩ }

/-- R146, R9: a word whose `OP` is 0x05 is `NEXT_F64`. It completes on every seeded state. Under `F64_SOURCE = U32`,
which this hardware takes, it converts one draw; under `U64` it converts the pair `NEXT_U64` would return and leaves
its state. It is refused with NOT_SEEDED on every other state. -/
def Obligations.NextF64ConvertsItsSource : Prop :=
  (∀ w : CmdWord, cmdOp w = 0x05 → decode w = some .nextF64) ∧
    (∀ s : State, s.seeded = true → ∃ (x : Word) (z : DWord) (t u : State),
      exec .nextU32 s = .next t ∧ t.rsp = some ⟨0, x.setWidth 64⟩ ∧
        exec .nextU64 s = .next u ∧ u.rsp = some ⟨0, z⟩ ∧
        exec .nextF64 s = .next { t with rsp := some ⟨0, u32ToF64 x⟩ } ∧
        nextF64With .u32 s = .next { t with rsp := some ⟨0, u32ToF64 x⟩ } ∧
        nextF64With .u64 s = .next { u with rsp := some ⟨0, u64ToF64 z⟩ }) ∧
    ∀ s : State, s.seeded = false → exec .nextF64 s = .next { s with stickyErr := true, rsp := some ⟨2, 0⟩ }

/-- R148: a word whose `OP` is 0x00 is `NOP`. It completes on every state, seeded or not, with the response (OK, 0)
and no other effect. -/
def Obligations.NopOnlyResponds : Prop :=
  (∀ w : CmdWord, cmdOp w = 0x00 → decode w = some .nop) ∧
    ∀ s : State, exec .nop s = .next { s with rsp := some ⟨0, 0⟩ }

/-! ### The float converter -/

/-- R140, R18: under each `FLOAT32_METHOD` the conversion is the correctly rounded value R140 names, whatever the
draw. Under NAIVE_F32 the divisor is 2^32 and the division is exact. -/
def Obligations.U32ToF32RoundsAsItsMethodSays : Prop :=
  ∀ x : Word,
    binary32.IsNearest ((x.toNat : ℚ) / 4294967295) (u32ToF32 .singleRounding x).toNat ∧
      (∃ a b, binary32.IsNearest (x.toNat : ℚ) a ∧ binary32.IsNearest (4294967295 : ℚ) b ∧
        binary32.value b = 4294967296 ∧
        binary32.IsNearest (binary32.value a / binary32.value b) (u32ToF32 .naiveF32 x).toNat ∧
        binary32.value (u32ToF32 .naiveF32 x).toNat = binary32.value a / 4294967296) ∧
      ∃ a, binary64.IsNearest ((x.toNat : ℚ) / 4294967295) a ∧
        binary32.IsNearest (binary64.value a) (u32ToF32 .viaF64 x).toNat

/-- R145, R18: the binary64 conversions are the correctly rounded quotients by 2^32 − 1 and by 2^64 − 1. -/
def Obligations.ToF64RoundsTheQuotient : Prop :=
  (∀ x : Word, binary64.IsNearest ((x.toNat : ℚ) / 4294967295) (u32ToF64 x).toNat) ∧
    ∀ z : DWord, binary64.IsNearest ((z.toNat : ℚ) / 18446744073709551615) (u64ToF64 z).toNat

/-- R141: no tie arises. The value given is nearer to the exact quotient than every other finite value, for
SINGLE_ROUNDING and for both binary64 conversions. -/
def Obligations.SingleRoundingMeetsNoTie : Prop :=
  (∀ x : Word, binary32.IsStrictlyNearest ((x.toNat : ℚ) / 4294967295) (u32ToF32 .singleRounding x).toNat) ∧
    (∀ x : Word, binary64.IsStrictlyNearest ((x.toNat : ℚ) / 4294967295) (u32ToF64 x).toNat) ∧
    ∀ z : DWord, binary64.IsStrictlyNearest ((z.toNat : ℚ) / 18446744073709551615) (u64ToF64 z).toNat

/-- R143 (its range facts): under every method a binary32 result is in [0.0, 1.0], is +0.0 exactly for x = 0, and is
1.0 exactly from 0xffffff80 on, or from 0xffffff7f on under VIA_F64. -/
def Obligations.F32RangeAndEndpoints : Prop :=
  ∀ (m : Float32Method) (x : Word),
    (u32ToF32 m x).toNat ≤ 0x3f800000 ∧ (u32ToF32 m x = 0 ↔ x = 0) ∧
      (u32ToF32 m x = 0x3f800000 ↔ (if m = .viaF64 then 0xffffff7f else 0xffffff80) ≤ x.toNat)

/-- R147: the range facts of the binary64 conversions, and that distinct 32-bit draws give distinct results. -/
def Obligations.F64RangeAndEndpoints : Prop :=
  (∀ x : Word, (u32ToF64 x).toNat ≤ 0x3ff0000000000000 ∧ (u32ToF64 x = 0 ↔ x = 0) ∧
      (u32ToF64 x = 0x3ff0000000000000 ↔ x = 0xffffffff)) ∧
    Function.Injective u32ToF64 ∧
    ∀ z : DWord, (u64ToF64 z).toNat ≤ 0x3ff0000000000000 ∧ (u64ToF64 z = 0 ↔ z = 0) ∧
      (u64ToF64 z = 0x3ff0000000000000 ↔ 0xfffffffffffffc00 ≤ z.toNat)

/-- R144: no float result is a NaN, an infinity, negative, −0.0 or subnormal: its sign bit is 0, its exponent field is
not all ones, and its exponent field is 0 only for +0.0. -/
def Obligations.FloatResultsAreOrdinary : Prop :=
  (∀ m x, let b := u32ToF32 m x
    b.getLsbD 31 = false ∧ b.extractLsb' 23 8 ≠ 0xff ∧ (b.extractLsb' 23 8 = 0 → b = 0)) ∧
    (∀ x, let b := u32ToF64 x
      b.getLsbD 63 = false ∧ b.extractLsb' 52 11 ≠ 0x7ff ∧ (b.extractLsb' 52 11 = 0 → b = 0)) ∧
    ∀ z, let b := u64ToF64 z
      b.getLsbD 63 = false ∧ b.extractLsb' 52 11 ≠ 0x7ff ∧ (b.extractLsb' 52 11 = 0 → b = 0)

/-- R139: 0.0 and 1.0 are both reachable results of `NEXT_F32`, under every method, and of `NEXT_F64`, under both
sources. -/
def Obligations.BothEndpointsAreDrawn : Prop :=
  (∀ m, ∃ s t : State, s.Inv ∧ s.seeded = true ∧ nextF32With m s = .next t ∧ t.rsp = some ⟨0, 0⟩) ∧
    (∀ m, ∃ s t : State, s.Inv ∧ s.seeded = true ∧ nextF32With m s = .next t ∧ t.rsp = some ⟨0, 0x3f800000⟩) ∧
    (∀ src, ∃ s t : State, s.Inv ∧ s.seeded = true ∧ nextF64With src s = .next t ∧ t.rsp = some ⟨0, 0⟩) ∧
    ∀ src, ∃ s t : State, s.Inv ∧ s.seeded = true ∧ nextF64With src s = .next t ∧
      t.rsp = some ⟨0, 0x3ff0000000000000⟩

/-! ### The whole machine -/

/-- R42, R43, R75: the invariant holds right after reset. -/
def Obligations.InvariantHoldsAtReset : Prop := State.reset.Inv

/-- R43, R75: from every state that meets the invariant, every step leads to one that meets it: a seeded state's
cursor stays in [1, 624], and no response ever has code 3 or a non-zero data with an error code. -/
def Obligations.EveryStepKeepsTheInvariant : Prop :=
  ∀ s t : State, s.Inv → step s = .next t → t.Inv

/-- R42, R43, R173: while unseeded, what `mt` and `index` hold is never read. Two states that differ in them alone
step to states that differ, at most, in them alone, and in nothing once seeded. -/
def Obligations.UnsetWordsAreNeverRead : Prop :=
  ∀ s t s' : State, s.SameToHost t → step s = .next s' → ∃ t', step t = .next t' ∧ s'.SameToHost t'

/-- R105, R131, R132: the stream in closed form. After `SEED v` and n draws, the vector has been twisted once for
every 624 draws begun, and the next `NEXT_U32` returns the tempered word n mod 624 of generation n / 624 + 1. -/
def Obligations.DrawsFollowOneTwistPer624 : Prop :=
  ∀ (v : Word) (s : State) (n : Nat), ∃ t u w,
    exec (.seed v) s = .next t ∧ repeatExec .nextU32 n t = .next u ∧
      u.mt = twistWords^[(n + 623) / 624] t.mt ∧
      u.index.val = (if n = 0 then 624 else (n - 1) % 624 + 1) ∧
      exec .nextU32 u = .next w ∧
      w.rsp = some ⟨0, (temper (mtWord (twistWords^[n / 624 + 1] t.mt) (n % 624))).setWidth 64⟩

/-- R56, R58, R76: whatever the host drives, idle edges and late `rsp_ready` included, a run without reset leaves the
state the commands it accepted leave when composed in order, and the responses taken and held are theirs, one per
command and in order. A host that offers a program's words one by one and takes each response has exactly that program
accepted. -/
def Obligations.ProgramsRunAsComposition : Prop :=
  (∀ (k : Nat) (s : State), (∀ p ∈ s.inputs.take k, p.rst = false) →
    ∃ t, runSteps k s = .next t ∧
      let u := serveAll { s with taken := s.taken ++ s.rsp.toList, rsp := none } (acceptedWords k s)
      t.mt = u.mt ∧ t.index = u.index ∧ t.seeded = u.seeded ∧ t.stickyErr = u.stickyErr ∧
        t.taken ++ t.rsp.toList = u.taken ∧
        u.taken.length = s.taken.length + s.rsp.toList.length + (acceptedWords k s).length) ∧
    ∀ (ws : List CmdWord) (s : State), s.rsp = none → s.offered = [] →
      acceptedWords (2 * ws.length) { s with inputs := driveProgram ws } = ws ∧
        runSteps (2 * ws.length) { s with inputs := driveProgram ws } =
          .next (serveAll { s with inputs := [] } ws) ∧
        (serveAll { s with inputs := [] } ws).taken.length = s.taken.length + ws.length

/-- R204: from any state, whatever it holds, a reset edge and then a run without reset, whatever the host drives, leave
the responses taken and held that the accepted commands give from reset, and nothing else. So two runs that accept the
same commands since reset give the same responses. -/
def Obligations.ResponsesDependOnCommandsSinceReset : Prop :=
  (∀ (k : Nat) (s : State) (p : PortSample) (rest : List PortSample), s.inputs = p :: rest → p.rst = true →
    (∀ q ∈ rest.take k, q.rst = false) →
      ∃ t, runSteps (k + 1) s = .next t ∧
        t.taken ++ t.rsp.toList = s.taken ++ (serveAll State.reset (acceptedWords (k + 1) s)).taken) ∧
    ∀ (ws : List CmdWord) (s : State), ∃ t : State,
      runSteps (2 * ws.length + 1) { s with inputs := ⟨true, false, 0, false⟩ :: driveProgram ws } = .next t ∧
        t.taken = s.taken ++ (serveAll State.reset ws).taken
end

