-- ==== Sys2Proof/Laws/Decode.lean ====
section
/-! SUPPORT. The fields of a command word (R73). -/

namespace Sys2Proof

theorem commandWord_toNat (op : BitVec 8) (d : Word) : (commandWord op d).toNat = 4294967296 * op.toNat + d.toNat := by
  have h : (commandWord op d).toNat = op.toNat <<< 32 ||| d.toNat := BitVec.toNat_append op d
  rw [h, Nat.shiftLeft_eq, Nat.mul_comm]
  exact (Nat.two_pow_add_eq_or_of_lt d.isLt op.toNat).symm

@[simp] theorem cmdOp_commandWord (op : BitVec 8) (d : Word) : cmdOp (commandWord op d) = op := by
  refine BitVec.eq_of_toNat_eq ?_
  rw [cmdOp, BitVec.extractLsb'_toNat, commandWord_toNat, Nat.shiftRight_eq_div_pow]
  omega

@[simp] theorem cmdData_commandWord (op : BitVec 8) (d : Word) : cmdData (commandWord op d) = d := by
  refine BitVec.eq_of_toNat_eq ?_
  rw [cmdData, BitVec.extractLsb'_toNat, commandWord_toNat, Nat.shiftRight_eq_div_pow]
  omega

/-- A word's `OP`, as a number. -/
theorem cmdOp_toNat (w : CmdWord) : (cmdOp w).toNat = w.toNat / 4294967296 := by
  rw [cmdOp, BitVec.extractLsb'_toNat, Nat.shiftRight_eq_div_pow]
  omega

end Sys2Proof
end

