-- ==== Sys2Proof/Laws/State.lean ====
section
/-! SUPPORT. Each field after each update of State. -/

namespace Sys2Proof.Machine

variable (s : State)

@[simp] theorem State.setMt_mt (m : Vector Word 624) : (s.setMt m).mt = m := rfl
@[simp] theorem State.setMt_index (m : Vector Word 624) : (s.setMt m).index = s.index := rfl
@[simp] theorem State.setMt_seeded (m : Vector Word 624) : (s.setMt m).seeded = s.seeded := rfl
@[simp] theorem State.setMt_stickyErr (m : Vector Word 624) : (s.setMt m).stickyErr = s.stickyErr := rfl
@[simp] theorem State.setMt_rsp (m : Vector Word 624) : (s.setMt m).rsp = s.rsp := rfl
@[simp] theorem State.setMt_inputs (m : Vector Word 624) : (s.setMt m).inputs = s.inputs := rfl
@[simp] theorem State.setMt_offered (m : Vector Word 624) : (s.setMt m).offered = s.offered := rfl
@[simp] theorem State.setMt_taken (m : Vector Word 624) : (s.setMt m).taken = s.taken := rfl
@[simp] theorem State.setMt_freeCount (m : Vector Word 624) : (s.setMt m).freeCount = s.freeCount := rfl

@[simp] theorem State.setIndex_mt (i : Nat) : (s.setIndex i).mt = s.mt := rfl
@[simp] theorem State.setIndex_index (i : Nat) : (s.setIndex i).index = Fin.ofNat 625 i := rfl
@[simp] theorem State.setIndex_seeded (i : Nat) : (s.setIndex i).seeded = s.seeded := rfl
@[simp] theorem State.setIndex_stickyErr (i : Nat) : (s.setIndex i).stickyErr = s.stickyErr := rfl
@[simp] theorem State.setIndex_rsp (i : Nat) : (s.setIndex i).rsp = s.rsp := rfl
@[simp] theorem State.setIndex_inputs (i : Nat) : (s.setIndex i).inputs = s.inputs := rfl
@[simp] theorem State.setIndex_offered (i : Nat) : (s.setIndex i).offered = s.offered := rfl
@[simp] theorem State.setIndex_taken (i : Nat) : (s.setIndex i).taken = s.taken := rfl
@[simp] theorem State.setIndex_freeCount (i : Nat) : (s.setIndex i).freeCount = s.freeCount := rfl

@[simp] theorem State.setSeeded_mt : s.setSeeded.mt = s.mt := rfl
@[simp] theorem State.setSeeded_index : s.setSeeded.index = s.index := rfl
@[simp] theorem State.setSeeded_seeded : s.setSeeded.seeded = true := rfl
@[simp] theorem State.setSeeded_stickyErr : s.setSeeded.stickyErr = s.stickyErr := rfl
@[simp] theorem State.setSeeded_rsp : s.setSeeded.rsp = s.rsp := rfl
@[simp] theorem State.setSeeded_inputs : s.setSeeded.inputs = s.inputs := rfl
@[simp] theorem State.setSeeded_offered : s.setSeeded.offered = s.offered := rfl
@[simp] theorem State.setSeeded_taken : s.setSeeded.taken = s.taken := rfl
@[simp] theorem State.setSeeded_freeCount : s.setSeeded.freeCount = s.freeCount := rfl

@[simp] theorem State.setStickyErr_mt : s.setStickyErr.mt = s.mt := rfl
@[simp] theorem State.setStickyErr_index : s.setStickyErr.index = s.index := rfl
@[simp] theorem State.setStickyErr_seeded : s.setStickyErr.seeded = s.seeded := rfl
@[simp] theorem State.setStickyErr_stickyErr : s.setStickyErr.stickyErr = true := rfl
@[simp] theorem State.setStickyErr_rsp : s.setStickyErr.rsp = s.rsp := rfl
@[simp] theorem State.setStickyErr_inputs : s.setStickyErr.inputs = s.inputs := rfl
@[simp] theorem State.setStickyErr_offered : s.setStickyErr.offered = s.offered := rfl
@[simp] theorem State.setStickyErr_taken : s.setStickyErr.taken = s.taken := rfl
@[simp] theorem State.setStickyErr_freeCount : s.setStickyErr.freeCount = s.freeCount := rfl

@[simp] theorem State.respond_mt (c : BitVec 2) (d : DWord) : (s.respond c d).mt = s.mt := rfl
@[simp] theorem State.respond_index (c : BitVec 2) (d : DWord) : (s.respond c d).index = s.index := rfl
@[simp] theorem State.respond_seeded (c : BitVec 2) (d : DWord) : (s.respond c d).seeded = s.seeded := rfl
@[simp] theorem State.respond_stickyErr (c : BitVec 2) (d : DWord) : (s.respond c d).stickyErr = s.stickyErr := rfl
@[simp] theorem State.respond_rsp (c : BitVec 2) (d : DWord) : (s.respond c d).rsp = some ⟨c, d⟩ := rfl
@[simp] theorem State.respond_inputs (c : BitVec 2) (d : DWord) : (s.respond c d).inputs = s.inputs := rfl
@[simp] theorem State.respond_offered (c : BitVec 2) (d : DWord) : (s.respond c d).offered = s.offered := rfl
@[simp] theorem State.respond_taken (c : BitVec 2) (d : DWord) : (s.respond c d).taken = s.taken := rfl
@[simp] theorem State.respond_freeCount (c : BitVec 2) (d : DWord) : (s.respond c d).freeCount = s.freeCount := rfl

@[simp] theorem State.pastEdge_mt : s.pastEdge.mt = s.mt := rfl
@[simp] theorem State.pastEdge_index : s.pastEdge.index = s.index := rfl
@[simp] theorem State.pastEdge_seeded : s.pastEdge.seeded = s.seeded := rfl
@[simp] theorem State.pastEdge_stickyErr : s.pastEdge.stickyErr = s.stickyErr := rfl
@[simp] theorem State.pastEdge_rsp : s.pastEdge.rsp = s.rsp := rfl
@[simp] theorem State.pastEdge_inputs : s.pastEdge.inputs = s.inputs.tail := rfl
@[simp] theorem State.pastEdge_offered : s.pastEdge.offered = s.offered := rfl
@[simp] theorem State.pastEdge_taken : s.pastEdge.taken = s.taken := rfl
@[simp] theorem State.pastEdge_freeCount : s.pastEdge.freeCount = s.freeCount := rfl

@[simp] theorem State.noteOffer_mt (p : PortSample) : (s.noteOffer p).mt = s.mt := rfl
@[simp] theorem State.noteOffer_index (p : PortSample) : (s.noteOffer p).index = s.index := rfl
@[simp] theorem State.noteOffer_seeded (p : PortSample) : (s.noteOffer p).seeded = s.seeded := rfl
@[simp] theorem State.noteOffer_stickyErr (p : PortSample) : (s.noteOffer p).stickyErr = s.stickyErr := rfl
@[simp] theorem State.noteOffer_rsp (p : PortSample) : (s.noteOffer p).rsp = s.rsp := rfl
@[simp] theorem State.noteOffer_inputs (p : PortSample) : (s.noteOffer p).inputs = s.inputs := rfl
@[simp] theorem State.noteOffer_offered (p : PortSample) : (s.noteOffer p).offered = if p.cmdValid then addOffer p.cmdWord s.offered else [] := rfl
@[simp] theorem State.noteOffer_taken (p : PortSample) : (s.noteOffer p).taken = s.taken := rfl
@[simp] theorem State.noteOffer_freeCount (p : PortSample) : (s.noteOffer p).freeCount = s.freeCount := rfl

@[simp] theorem State.deliver_mt (r : Response) : (s.deliver r).mt = s.mt := rfl
@[simp] theorem State.deliver_index (r : Response) : (s.deliver r).index = s.index := rfl
@[simp] theorem State.deliver_seeded (r : Response) : (s.deliver r).seeded = s.seeded := rfl
@[simp] theorem State.deliver_stickyErr (r : Response) : (s.deliver r).stickyErr = s.stickyErr := rfl
@[simp] theorem State.deliver_rsp (r : Response) : (s.deliver r).rsp = none := rfl
@[simp] theorem State.deliver_inputs (r : Response) : (s.deliver r).inputs = s.inputs := rfl
@[simp] theorem State.deliver_offered (r : Response) : (s.deliver r).offered = s.offered := rfl
@[simp] theorem State.deliver_taken (r : Response) : (s.deliver r).taken = s.taken ++ [r] := rfl
@[simp] theorem State.deliver_freeCount (r : Response) : (s.deliver r).freeCount = s.freeCount := rfl

@[simp] theorem State.hardReset_mt : s.hardReset.mt = State.reset.mt := rfl
@[simp] theorem State.hardReset_index : s.hardReset.index = State.reset.index := rfl
@[simp] theorem State.hardReset_seeded : s.hardReset.seeded = false := rfl
@[simp] theorem State.hardReset_stickyErr : s.hardReset.stickyErr = false := rfl
@[simp] theorem State.hardReset_rsp : s.hardReset.rsp = none := rfl
@[simp] theorem State.hardReset_inputs : s.hardReset.inputs = s.inputs := rfl
@[simp] theorem State.hardReset_offered : s.hardReset.offered = s.offered := rfl
@[simp] theorem State.hardReset_taken : s.hardReset.taken = s.taken := rfl
@[simp] theorem State.hardReset_freeCount : s.hardReset.freeCount = s.freeCount := rfl

end Sys2Proof.Machine
end

