-- ==== Sys2Proof/Laws/Ops.lean ====
section
/-! SUPPORT. The laws of the named operations of Machine/Ops.lean. -/

namespace Sys2Proof.Machine

/-- A word reads as it was last written. -/
theorem mtWord_mtWrite_same (mt : Vector Word 624) {i j : Nat} (v : Word) (h : i % 624 = j % 624) :
    mtWord (mtWrite mt i v) j = v := by
  simp [mtWord, mtWrite, h]

/-- A write leaves every other word alone. -/
theorem mtWord_mtWrite_other (mt : Vector Word 624) {i j : Nat} (v : Word) (h : i % 624 ≠ j % 624) :
    mtWord (mtWrite mt i v) j = mtWord mt j := by
  simp [mtWord, mtWrite, h]

/-- Indices count modulo 624 (R16). -/
theorem mtWord_mod (mt : Vector Word 624) (i : Nat) : mtWord mt (i % 624) = mtWord mt i := by
  simp [mtWord]

/-- Two vectors with the same words are the same vector. -/
theorem mt_ext {a b : Vector Word 624} (h : ∀ i, i < 624 → mtWord a i = mtWord b i) : a = b := by
  refine Vector.ext fun i hi => ?_
  simpa [mtWord, Nat.mod_eq_of_lt hi] using h i hi

@[simp] theorem forUpTo_zero {σ : Type} (f : σ → Nat → σ) (x : σ) : forUpTo f 0 x = x := rfl

@[simp] theorem forUpTo_succ {σ : Type} (f : σ → Nat → σ) (n : Nat) (x : σ) :
    forUpTo f (n + 1) x = f (forUpTo f n x) n := rfl

/-- What holds at the start of a counted loop and is kept by each of its iterations holds at its end. -/
theorem forUpTo_induction {σ : Type} (f : σ → Nat → σ) (x : σ) (P : Nat → σ → Prop) (n : Nat) (h0 : P 0 x)
    (hs : ∀ k y, k < n → P k y → P (k + 1) (f y k)) : P n (forUpTo f n x) := by
  have : ∀ k, k ≤ n → P k (forUpTo f k x) := by
    intro k
    induction k with
    | zero => intro _; exact h0
    | succ k ih => intro hk; exact hs k _ hk (ih (by omega))
  exact this n (Nat.le_refl n)

/-- All a command error does (R171). -/
theorem cmdError_eq (c : BitVec 2) (s : State) :
    cmdError c s = .next { s with stickyErr := true, rsp := some ⟨c, 0⟩ } := rfl

/-- A guarded draw of a seeded state runs. -/
theorem whenSeeded_of_seeded {s : State} (h : s.seeded = true) (body : State → State) :
    whenSeeded s body = .next (body s) := by
  simp [whenSeeded, h]

/-- A guarded draw of an unseeded state is refused with NOT_SEEDED (R173). -/
theorem whenSeeded_of_unseeded {s : State} (h : s.seeded = false) (body : State → State) :
    whenSeeded s body = .next { s with stickyErr := true, rsp := some ⟨codeNotSeeded, 0⟩ } := by
  simp [whenSeeded, h, cmdError_eq]

/-- The two outcomes of a guarded draw. -/
theorem whenSeeded_cases (s : State) (body : State → State) :
    (s.seeded = true ∧ whenSeeded s body = .next (body s)) ∨
      (s.seeded = false ∧ whenSeeded s body = .next { s with stickyErr := true, rsp := some ⟨codeNotSeeded, 0⟩ }) := by
  by_cases h : s.seeded = true
  · exact .inl ⟨h, whenSeeded_of_seeded h body⟩
  · have h : s.seeded = false := by simpa using h
    exact .inr ⟨h, whenSeeded_of_unseeded h body⟩

end Sys2Proof.Machine
end

