-- ==== Sys2Proof/Laws/Draw.lean ====
section
/-! SUPPORT. What Twist, the refill and Draw32 do, said once. -/

namespace Sys2Proof.Machine

variable (s : State)

/-- All a twist does (R104, R108). -/
theorem twist_eq : twist s = { s with mt := twistWords s.mt, index := 0 } := rfl

/-- The loop `InitState` runs (R101). Rewrite with this; `rfl` on the loop unrolls it. -/
theorem initState_eq (mt : Vector Word 624) (seed : Word) :
    initState mt seed = forUpTo initStep 623 (mtWrite mt 0 seed) := by
  delta initState
  exact Eq.refl _

/-- The loop a twist runs (R104). Rewrite with this; `rfl` on the loop unrolls it. -/
theorem twistWords_eq (mt : Vector Word 624) : twistWords mt = forUpTo twistStep 624 mt := by
  delta twistWords nWords
  exact Eq.refl _

/-- A twist step leaves every word but its own alone. -/
theorem twistStep_other (mt : Vector Word 624) {i j : Nat} (h : i % 624 ≠ j % 624) :
    mtWord (twistStep mt i) j = mtWord mt j := mtWord_mtWrite_other mt _ h

/-- The word a twist step writes (R104). -/
theorem twistStep_same (mt : Vector Word 624) (i : Nat) :
    mtWord (twistStep mt i) i = twistWord (mtWord mt i) (mtWord mt (i + 1)) (mtWord mt (i + 397)) :=
  mtWord_mtWrite_same mt _ rfl

/-- An `InitState` iteration leaves every word but its own alone. -/
theorem initStep_other (mt : Vector Word 624) {k j : Nat} (h : (k + 1) % 624 ≠ j % 624) :
    mtWord (initStep mt k) j = mtWord mt j := mtWord_mtWrite_other mt _ h

/-- The word an `InitState` iteration writes (R101). -/
theorem initStep_same (mt : Vector Word 624) (k : Nat) :
    mtWord (initStep mt k) (k + 1) = initNext (k + 1) (mtWord mt k) := mtWord_mtWrite_same mt _ rfl

/-- An exhausted state twists before it is drawn from. -/
theorem refill_of_exhausted (h : s.index.val = 624) : refill s = { s with mt := twistWords s.mt, index := 0 } := by
  rw [refill, if_pos (by simpa [nWords] using h)]
  rfl

/-- Any other state does not. -/
theorem refill_of_lt (h : s.index.val < 624) : refill s = s := by
  rw [refill, if_neg (by simp [nWords]; omega)]

/-- A draw from an exhausted state (R131). -/
theorem draw32_of_exhausted (h : s.index.val = 624) :
    draw32 s = (temper (mtWord (twistWords s.mt) 0), { s with mt := twistWords s.mt, index := 1 }) := by
  rw [draw32, refill_of_exhausted s h]
  rfl

/-- A draw from any other state (R131). -/
theorem draw32_of_lt (h : s.index.val < 624) :
    draw32 s = (temper (mtWord s.mt s.index.val), { s with index := Fin.ofNat 625 (s.index.val + 1) }) := by
  rw [draw32, refill_of_lt s h]
  rfl

/-- A cursor is below 624 or at it. -/
theorem index_lt_or_exhausted : s.index.val < 624 ∨ s.index.val = 624 := by omega

/-- Where a draw leaves the cursor (R131). -/
theorem draw32_index : (draw32 s).2.index.val = if s.index.val = 624 then 1 else s.index.val + 1 := by
  obtain h | h := index_lt_or_exhausted s
  · rw [draw32_of_lt s h, if_neg (by omega)]
    simp only [Fin.ofNat]
    omega
  · rw [draw32_of_exhausted s h, if_pos h]
    rfl

/-- The vector a draw leaves (R131). -/
theorem draw32_mt : (draw32 s).2.mt = if s.index.val = 624 then twistWords s.mt else s.mt := by
  obtain h | h := index_lt_or_exhausted s
  · rw [draw32_of_lt s h, if_neg (by omega)]
  · rw [draw32_of_exhausted s h, if_pos h]

/-- A draw moves `mt` and `index` and nothing else. -/
theorem draw32_frame : (draw32 s).2 = { s with mt := (draw32 s).2.mt, index := (draw32 s).2.index } := by
  obtain h | h := index_lt_or_exhausted s
  · rw [draw32_of_lt s h]
  · rw [draw32_of_exhausted s h]

@[simp] theorem draw32_seeded : (draw32 s).2.seeded = s.seeded := by rw [draw32_frame]
@[simp] theorem draw32_stickyErr : (draw32 s).2.stickyErr = s.stickyErr := by rw [draw32_frame]
@[simp] theorem draw32_rsp : (draw32 s).2.rsp = s.rsp := by rw [draw32_frame]
@[simp] theorem draw32_inputs : (draw32 s).2.inputs = s.inputs := by rw [draw32_frame]
@[simp] theorem draw32_offered : (draw32 s).2.offered = s.offered := by rw [draw32_frame]
@[simp] theorem draw32_taken : (draw32 s).2.taken = s.taken := by rw [draw32_frame]
@[simp] theorem draw32_freeCount : (draw32 s).2.freeCount = s.freeCount := by rw [draw32_frame]

/-- After a draw the cursor is in [1, 624] (R131). -/
theorem draw32_index_pos : 1 ≤ (draw32 s).2.index.val := by
  rw [draw32_index]
  split <;> omega

/-- The drawn word and the moved `mt` and `index` depend on `mt` and `index` alone. -/
theorem draw32_congr {s t : State} (hm : s.mt = t.mt) (hi : s.index = t.index) :
    (draw32 s).1 = (draw32 t).1 ∧ (draw32 s).2.mt = (draw32 t).2.mt ∧ (draw32 s).2.index = (draw32 t).2.index := by
  obtain h | h := index_lt_or_exhausted s
  · rw [draw32_of_lt s h, draw32_of_lt t (hi ▸ h), hm, hi]
    exact ⟨rfl, rfl, rfl⟩
  · rw [draw32_of_exhausted s h, draw32_of_exhausted t (hi ▸ h), hm]
    exact ⟨rfl, rfl, rfl⟩

end Sys2Proof.Machine
end

