-- ==== Sys2Proof/Laws/Ports.lean ====
section
/-! SUPPORT. What one rising edge can do, one lemma for each of its cases. -/

namespace Sys2Proof.Machine

variable {s : State}

/-- An edge under `rst` (R200). -/
theorem risingEdge_of_rst (h : s.pins.rst = true) :
    risingEdge s = .next ((s.pastEdge.noteOffer s.pins).hardReset) := by
  simp [risingEdge, h]

/-- An edge with a response held (R76). -/
theorem risingEdge_of_held {r : Response} (h : s.pins.rst = false) (hr : s.rsp = some r) :
    risingEdge s = .next (if s.pins.rspReady then (s.pastEdge.noteOffer s.pins).deliver r
      else s.pastEdge.noteOffer s.pins) := by
  simp [risingEdge, h, hr]

/-- An edge that accepts a command (R71). -/
theorem risingEdge_of_accept (h : s.pins.rst = false) (hr : s.rsp = none) (hv : s.pins.cmdValid = true) :
    risingEdge s = runCommand (s.pastEdge.accept s.pins).1 (s.pastEdge.accept s.pins).2 := by
  simp [risingEdge, h, hr, hv]

/-- An edge at which nothing happens. -/
theorem risingEdge_of_idle (h : s.pins.rst = false) (hr : s.rsp = none) (hv : s.pins.cmdValid = false) :
    risingEdge s = .next (s.pastEdge.noteOffer s.pins) := by
  simp [risingEdge, h, hr, hv]

/-- The words of an offer stay distinct. -/
theorem addOffer_nodup {w : CmdWord} {ws : List CmdWord} (h : ws.Nodup) : (addOffer w ws).Nodup := by
  unfold addOffer
  split
  · exact h
  · next hw =>
    refine List.nodup_append.2 ⟨h, by simp, fun a ha b hb e => hw ?_⟩
    rw [List.mem_singleton] at hb
    rwa [← hb, ← e]

/-- An offered word is among the words of its offer. -/
theorem mem_addOffer (w : CmdWord) (ws : List CmdWord) : w ∈ addOffer w ws := by
  unfold addOffer
  split
  · assumption
  · simp

/-- A host that held its word has that word accepted (R71). -/
theorem accept_steady {p : PortSample} (h : s.offered = [] ∨ s.offered = [p.cmdWord]) :
    s.accept p = (p.cmdWord, { s with offered := [] }) := by
  obtain h | h := h <;> simp [State.accept, addOffer, h]

/-- Accepting ends the offer, may use one free value, and changes nothing else. -/
theorem accept_state (s : State) (p : PortSample) :
    ∃ n, (s.accept p).2 = { s with offered := [], freeCount := n } := by
  unfold State.accept
  split
  · exact ⟨s.freeCount, rfl⟩
  · exact ⟨s.freeCount + 1, rfl⟩

/-- The word accepted is among the words of the offer (R71). -/
theorem accept_mem (s : State) (p : PortSample) :
    (s.accept p).1 = p.cmdWord ∨ (s.accept p).1 ∈ addOffer p.cmdWord s.offered := by
  unfold State.accept
  split
  · next h => exact .inr (by simp [h])
  · next h =>
    rw [List.getD_eq_getElem?_getD]
    cases e : (addOffer p.cmdWord s.offered)[Config.offerChoice s.freeCount %
        (addOffer p.cmdWord s.offered).length]? with
    | none => exact .inl rfl
    | some w => exact .inr (List.mem_of_getElem? e)

/-- What an offer's words are after one more (R71). -/
theorem mem_addOffer_iff {w x : CmdWord} {ws : List CmdWord} : x ∈ addOffer w ws ↔ x ∈ ws ∨ x = w := by
  unfold addOffer
  split
  · next h => exact ⟨.inl, fun h' => h'.elim id fun e => e ▸ h⟩
  · simp

/-- Only a reserved opcode or one of the six commands runs (R84). -/
theorem runCommand_cases (w : CmdWord) (s : State) :
    (∃ i, decode w = some i ∧ runCommand w s = exec i s) ∨ (decode w = none ∧ runCommand w s = execIllegalOp s) := by
  unfold runCommand
  cases decode w with
  | none => exact .inr ⟨rfl, rfl⟩
  | some i => exact .inl ⟨i, rfl, rfl⟩

end Sys2Proof.Machine
end

