-- ==== Sys2Proof/Laws/Exec.lean ====
section
/-! SUPPORT. Everything a command can do, said once for all six. -/

namespace Sys2Proof.Machine

/-- All `NOP` does (R148). -/
theorem exec_nop (s : State) : exec .nop s = .next { s with rsp := some ⟨codeOk, 0⟩ } := rfl

/-- All `SEED` does (R100). -/
theorem exec_seed (v : Word) (s : State) : exec (.seed v) s =
    .next { s with mt := initState s.mt v, index := 624, seeded := true, rsp := some ⟨codeOk, 0⟩ } := rfl

/-- The drawing part of each draw command, and `none` for `NOP` and `SEED`. -/
def drawOf : Instr → Option (State → State)
  | .nop     => none
  | .seed _  => none
  | .nextU32 => some drawU32
  | .nextU64 => some drawU64
  | .nextF32 => some (drawF32 .singleRounding)
  | .nextF64 => some (drawF64 .u32)

/-- What every draw writes: `mt`, `index` in [1, 624], and an OK response. -/
def DrawsOnly (body : State → State) : Prop :=
  ∀ s : State, ∃ m ix d, 1 ≤ ix.val ∧ body s = { s with mt := m, index := ix, rsp := some ⟨codeOk, d⟩ }

/-- One draw and a response to it. -/
theorem drawsOnly_one (g : Word → DWord) : DrawsOnly fun s => (draw32 s).2.respond codeOk (g (draw32 s).1) := by
  intro s
  refine ⟨(draw32 s).2.mt, (draw32 s).2.index, g (draw32 s).1, draw32_index_pos s, ?_⟩
  dsimp only
  rw [draw32_frame s]
  rfl

/-- Two draws and a response to both. -/
theorem drawsOnly_two (g : Word → Word → DWord) :
    DrawsOnly fun s => (draw32 (draw32 s).2).2.respond codeOk (g (draw32 s).1 (draw32 (draw32 s).2).1) := by
  intro s
  refine ⟨(draw32 (draw32 s).2).2.mt, (draw32 (draw32 s).2).2.index, g (draw32 s).1 (draw32 (draw32 s).2).1,
    draw32_index_pos _, ?_⟩
  dsimp only
  rw [draw32_frame (draw32 s).2]
  simp [State.respond]

theorem drawU32_drawsOnly : DrawsOnly drawU32 := drawsOnly_one zext64

theorem drawU64_drawsOnly : DrawsOnly drawU64 := drawsOnly_two joinWords

theorem drawF32_drawsOnly (m : Float32Method) : DrawsOnly (drawF32 m) := drawsOnly_one fun x => zext64 (u32ToF32 m x)

theorem drawF64_drawsOnly (src : F64Source) : DrawsOnly (drawF64 src) := by
  cases src with
  | u32 => exact drawsOnly_one u32ToF64
  | u64 => exact drawsOnly_two fun a b => u64ToF64 (joinWords a b)

theorem drawOf_drawsOnly {i : Instr} {body : State → State} (h : drawOf i = some body) : DrawsOnly body := by
  cases i <;> simp only [drawOf, Option.some.injEq, reduceCtorEq] at h <;> subst h
  · exact drawU32_drawsOnly
  · exact drawU64_drawsOnly
  · exact drawF32_drawsOnly _
  · exact drawF64_drawsOnly _

/-- A draw command is its drawing part under the guard of R173. -/
theorem exec_of_drawOf {i : Instr} {body : State → State} (h : drawOf i = some body) (s : State) :
    exec i s = whenSeeded s body := by
  cases i <;> simp only [drawOf, Option.some.injEq, reduceCtorEq] at h <;> subst h <;> rfl

/-- The four things a command can be: `NOP`, `SEED`, a draw refused, or a draw. -/
theorem exec_cases (i : Instr) (s : State) :
    (i = .nop ∧ exec i s = .next { s with rsp := some ⟨codeOk, 0⟩ }) ∨
    (∃ v, i = .seed v ∧ exec i s =
      .next { s with mt := initState s.mt v, index := 624, seeded := true, rsp := some ⟨codeOk, 0⟩ }) ∨
    (∃ body, drawOf i = some body ∧ s.seeded = false ∧
      exec i s = .next { s with stickyErr := true, rsp := some ⟨codeNotSeeded, 0⟩ }) ∨
    (∃ body, drawOf i = some body ∧ s.seeded = true ∧ exec i s = .next (body s)) := by
  have draws : ∀ body, drawOf i = some body →
      (∃ body, drawOf i = some body ∧ s.seeded = false ∧
        exec i s = .next { s with stickyErr := true, rsp := some ⟨codeNotSeeded, 0⟩ }) ∨
      (∃ body, drawOf i = some body ∧ s.seeded = true ∧ exec i s = .next (body s)) := by
    intro body hb
    rw [exec_of_drawOf hb]
    obtain ⟨hs, he⟩ | ⟨hs, he⟩ := whenSeeded_cases s body
    · exact .inr ⟨body, hb, hs, he⟩
    · exact .inl ⟨body, hb, hs, he⟩
  cases i with
  | nop => exact .inl ⟨rfl, exec_nop s⟩
  | seed v => exact .inr (.inl ⟨v, rfl, exec_seed v s⟩)
  | nextU32 => exact .inr (.inr (draws _ rfl))
  | nextU64 => exact .inr (.inr (draws _ rfl))
  | nextF32 => exact .inr (.inr (draws _ rfl))
  | nextF64 => exact .inr (.inr (draws _ rfl))

end Sys2Proof.Machine
end

