-- ==== Sys2Proof/Laws/Float.lean ====
section
/-! SUPPORT. The operations of the float converter against the rational values they stand for (R18). -/

namespace Sys2Proof.Machine

/-- Within half a unit of the quotient, and even when half a unit away. -/
theorem divNearestEven_spec {n d : Nat} (hd : 0 < d) :
    2 * (divNearestEven n d * d) ≤ 2 * n + d ∧ 2 * n ≤ 2 * (divNearestEven n d * d) + d ∧
      (2 * n = 2 * (divNearestEven n d * d) + d ∨ 2 * (divNearestEven n d * d) = 2 * n + d →
        divNearestEven n d % 2 = 0) := by
  have hn := Nat.div_add_mod n d
  have hr := Nat.mod_lt n hd
  have hc : d * (n / d) = n / d * d := Nat.mul_comm _ _
  unfold divNearestEven
  dsimp only
  split
  · refine ⟨by omega, by omega, by omega⟩
  · split
    · rw [Nat.add_mul]; refine ⟨by omega, by omega, by omega⟩
    · rcases Nat.mod_two_eq_zero_or_one (n / d) with h | h <;> rw [h]
      · rw [Nat.add_zero]; refine ⟨by omega, by omega, by omega⟩
      · rw [Nat.add_mul]; refine ⟨by omega, by omega, by omega⟩

/-- A comparison of n / d with a power of two, in natural numbers. -/
theorem natRatio_lt (n d : Nat) (e : Int) (hd : 0 < d) :
    n * 2 ^ (-e).toNat < d * 2 ^ e.toNat ↔ (n : ℚ) / d < (2 : ℚ) ^ e := by
  have hd' : (0 : ℚ) < d := by exact_mod_cast hd
  rw [div_lt_iff₀ hd']
  rcases le_total 0 e with h | h
  · lift e to ℕ using h
    simp
    rw [mul_comm]
    exact_mod_cast Iff.rfl
  · obtain ⟨k, rfl⟩ : ∃ k : ℕ, e = -k := ⟨(-e).toNat, by omega⟩
    have : (2 : ℚ) ^ (-(k : ℤ)) * d = d / 2 ^ k := by rw [zpow_neg, zpow_natCast]; ring
    rw [this, lt_div_iff₀ (by positivity)]
    simp
    exact_mod_cast Iff.rfl

/-- `ratioLog2` is the binary logarithm of the quotient, rounded down. -/
theorem ratioLog2_spec {n d : Nat} (hn : 0 < n) (hd : 0 < d) :
    (2 : ℚ) ^ ratioLog2 n d ≤ (n : ℚ) / d ∧ (n : ℚ) / d < (2 : ℚ) ^ (ratioLog2 n d + 1) := by
  have h1 : 2 ^ n.log2 ≤ n := Nat.log2_self_le (by omega)
  have h2 : n < 2 ^ (n.log2 + 1) := Nat.lt_log2_self
  have h3 : 2 ^ d.log2 ≤ d := Nat.log2_self_le (by omega)
  have h4 : d < 2 ^ (d.log2 + 1) := Nat.lt_log2_self
  have hd' : (0 : ℚ) < d := by exact_mod_cast hd
  have k1 : (2 : ℚ) ^ n.log2 ≤ n := by exact_mod_cast h1
  have k2 : (n : ℚ) < 2 ^ (n.log2 + 1) := by exact_mod_cast h2
  have k3 : (2 : ℚ) ^ d.log2 ≤ d := by exact_mod_cast h3
  have k4 : (d : ℚ) < 2 ^ (d.log2 + 1) := by exact_mod_cast h4
  have hlow : (2 : ℚ) ^ ((n.log2 : ℤ) - d.log2 - 1) ≤ (n : ℚ) / d := by
    rw [le_div_iff₀ hd']
    calc (2 : ℚ) ^ ((n.log2 : ℤ) - d.log2 - 1) * d
        ≤ (2 : ℚ) ^ ((n.log2 : ℤ) - d.log2 - 1) * 2 ^ (d.log2 + 1) := by gcongr
      _ = 2 ^ n.log2 := by
        rw [← zpow_natCast, ← zpow_natCast, ← zpow_add₀ (by norm_num)]; congr 1; push_cast; ring
      _ ≤ n := k1
  have hhigh : (n : ℚ) / d < (2 : ℚ) ^ ((n.log2 : ℤ) - d.log2 + 1) := by
    rw [div_lt_iff₀ hd']
    calc (n : ℚ) < 2 ^ (n.log2 + 1) := k2
      _ = (2 : ℚ) ^ ((n.log2 : ℤ) - d.log2 + 1) * 2 ^ d.log2 := by
        rw [← zpow_natCast, ← zpow_natCast, ← zpow_add₀ (by norm_num)]; congr 1; push_cast; ring
      _ ≤ (2 : ℚ) ^ ((n.log2 : ℤ) - d.log2 + 1) * d := by gcongr
  unfold ratioLog2
  dsimp only
  split
  · next h => rw [natRatio_lt n d _ hd] at h; exact ⟨hlow, by simpa using h⟩
  · next h => rw [natRatio_lt n d _ hd] at h; exact ⟨not_lt.1 h, hhigh⟩

/-- A bit pattern's value in units of the least subnormal. -/
def FloatFormat.units (f : FloatFormat) (b : Nat) : Nat :=
  if b / 2 ^ f.fracBits = 0 then b % 2 ^ f.fracBits
  else (2 ^ f.fracBits + b % 2 ^ f.fracBits) * 2 ^ (b / 2 ^ f.fracBits - 1)

theorem value_eq_units (f : FloatFormat) (b : Nat) :
    f.value b = f.units b * (2 : ℚ) ^ (1 - (f.bias : ℤ) - f.fracBits) := by
  unfold FloatFormat.value FloatFormat.units
  split
  · rfl
  · next h =>
    have : (2 : ℚ) ^ (((b / 2 ^ f.fracBits : Nat) : ℤ) - (f.bias : ℤ) - (f.fracBits : ℤ)) =
        2 ^ (b / 2 ^ f.fracBits - 1) * (2 : ℚ) ^ (1 - (f.bias : ℤ) - f.fracBits) := by
      rw [← zpow_natCast, ← zpow_add₀ (by norm_num)]
      congr 1
      have : 1 ≤ b / 2 ^ f.fracBits := Nat.one_le_iff_ne_zero.2 h
      push_cast [Nat.cast_sub this]; ring
    rw [this]; push_cast; ring

theorem units_fields (f : FloatFormat) (E m : Nat) (hm : m < 2 ^ f.fracBits) :
    f.units (E * 2 ^ f.fracBits + m) = if E = 0 then m else (2 ^ f.fracBits + m) * 2 ^ (E - 1) := by
  have h1 : (E * 2 ^ f.fracBits + m) / 2 ^ f.fracBits = E := by
    rw [Nat.mul_comm, Nat.mul_add_div (by positivity), Nat.div_eq_of_lt hm, Nat.add_zero]
  have h2 : (E * 2 ^ f.fracBits + m) % 2 ^ f.fracBits = m := by
    rw [Nat.mul_comm, Nat.mul_add_mod, Nat.mod_eq_of_lt hm]
  unfold FloatFormat.units; rw [h1, h2]

/-- The pattern of significand `sig` at scale `k`, which may carry into the next exponent. -/
theorem units_sig (f : FloatFormat) (k sig : Nat) (h1 : sig ≤ 2 * 2 ^ f.fracBits)
    (h2 : k = 0 ∨ 2 ^ f.fracBits ≤ sig) :
    f.units (k * 2 ^ f.fracBits + sig) = sig * 2 ^ k := by
  have hp : 0 < 2 ^ f.fracBits := by positivity
  by_cases a : sig < 2 ^ f.fracBits
  · obtain rfl : k = 0 := by omega
    rw [units_fields f 0 sig a]; simp
  · by_cases b : sig < 2 * 2 ^ f.fracBits
    · have : k * 2 ^ f.fracBits + sig = (k + 1) * 2 ^ f.fracBits + (sig - 2 ^ f.fracBits) := by
        rw [Nat.add_mul]; omega
      rw [this, units_fields f _ _ (by omega)]
      rw [if_neg (by omega), Nat.add_sub_cancel, Nat.add_sub_cancel' (by omega)]
    · have : sig = 2 * 2 ^ f.fracBits := by omega
      have e : k * 2 ^ f.fracBits + sig = (k + 2) * 2 ^ f.fracBits + 0 := by rw [Nat.add_mul]; omega
      rw [e, units_fields f _ _ hp, if_neg (by omega), this, show k + 2 - 1 = k + 1 by omega, pow_succ]; ring

/-- Finite patterns are ordered as their values are. -/
theorem units_strictMono (f : FloatFormat) : StrictMono f.units := by
  apply strictMono_nat_of_lt_succ
  intro b
  have hp : 0 < 2 ^ f.fracBits := by positivity
  obtain ⟨E, m, hm, rfl⟩ : ∃ E m, m < 2 ^ f.fracBits ∧ b = E * 2 ^ f.fracBits + m :=
    ⟨b / 2 ^ f.fracBits, b % 2 ^ f.fracBits, Nat.mod_lt _ hp, by rw [Nat.mul_comm]; exact (Nat.div_add_mod _ _).symm⟩
  rcases Nat.eq_zero_or_pos E with rfl | hE
  · have h1 := units_sig f 0 m (by omega) (.inl rfl)
    have h2 := units_sig f 0 (m+1) (by omega) (.inl rfl)
    simp only [Nat.zero_mul, Nat.zero_add, pow_zero, Nat.mul_one] at h1 h2 ⊢
    omega
  · have e : E * 2 ^ f.fracBits + m = (E - 1) * 2 ^ f.fracBits + (2 ^ f.fracBits + m) := by
      obtain ⟨E, rfl⟩ : ∃ k, E = k + 1 := ⟨E - 1, by omega⟩
      rw [Nat.add_mul, Nat.add_sub_cancel]; omega
    rw [e, Nat.add_assoc, units_sig f _ _ (by omega) (.inr (by omega)), units_sig f _ _ (by omega) (.inr (by omega))]
    apply Nat.mul_lt_mul_of_pos_right (by omega) (by positivity)

/-- A significand nearest to the scaled quotient S gives the nearest finite value, strictly so if S is no tie. -/
theorem nearest_of_sig (f : FloatFormat) (hp : 1 ≤ f.fracBits) (k sig : Nat) (S : ℚ)
    (hS : S < 2 * 2 ^ f.fracBits) (hS2 : k = 0 ∨ (2 : ℚ) ^ f.fracBits ≤ S)
    (n1 : (sig : ℚ) - S ≤ 1/2) (n2 : S - sig ≤ 1/2)
    (n3 : (sig : ℚ) - S = 1/2 ∨ S - sig = 1/2 → sig % 2 = 0)
    (hB : k * 2 ^ f.fracBits + sig < f.infBits) :
    f.IsNearest (S * 2 ^ k * (2 : ℚ) ^ (1 - (f.bias : ℤ) - f.fracBits)) (k * 2 ^ f.fracBits + sig) ∧
    (((sig : ℚ) - S ≠ 1/2 ∧ S - sig ≠ 1/2) →
      f.IsStrictlyNearest (S * 2 ^ k * (2 : ℚ) ^ (1 - (f.bias : ℤ) - f.fracBits)) (k * 2 ^ f.fracBits + sig)) := by
  have hpp : (0:ℚ) < 2 ^ f.fracBits := by positivity
  have hsig1 : sig ≤ 2 * 2 ^ f.fracBits := by
    by_contra h
    have : 2 * 2 ^ f.fracBits + 1 ≤ sig := by omega
    have : (2 * 2 ^ f.fracBits + 1 : ℚ) ≤ sig := by exact_mod_cast this
    linarith
  have hsig2 : k = 0 ∨ 2 ^ f.fracBits ≤ sig := by
    rcases hS2 with h | h
    · exact .inl h
    · right; by_contra h'
      have : sig + 1 ≤ 2 ^ f.fracBits := by omega
      have : (sig + 1 : ℚ) ≤ 2 ^ f.fracBits := by exact_mod_cast this
      linarith
  have hpar : (k * 2 ^ f.fracBits + sig) % 2 = sig % 2 := by
    obtain ⟨p, hp⟩ : ∃ p, f.fracBits = p + 1 := ⟨f.fracBits - 1, by omega⟩
    rw [hp, pow_succ, ← Nat.mul_assoc, Nat.add_comm, Nat.add_mul_mod_self_right]
  have hvB := units_sig f k sig hsig1 hsig2
  have hu : (0 : ℚ) < (2 : ℚ) ^ (1 - (f.bias : ℤ) - f.fracBits) := by positivity
  have h2k : (0 : ℚ) < 2 ^ k := by positivity
  -- work in units
  have key : ∀ c, c ≠ k * 2 ^ f.fracBits + sig →
      |(sig : ℚ) - S| < |(f.units c : ℚ) / 2 ^ k - S| ∨
        (|(sig : ℚ) - S| = |(f.units c : ℚ) / 2 ^ k - S| ∧
          ((sig : ℚ) - S = 1/2 ∨ S - sig = 1/2)) := by
    intro c hc
    have habs : |(sig : ℚ) - S| ≤ 1/2 := abs_le.2 ⟨by linarith, n1⟩
    rcases Nat.lt_or_gt_of_ne hc with h | h
    · -- c < B
      by_cases hs : sig = 0
      · -- then k = 0 and B = 0
        subst hs
        have : k = 0 := by rcases hsig2 with h | h; exact h; exact absurd h (by simp)
        subst this; simp at h
      by_cases hb : k = 0 ∨ 2 ^ f.fracBits ≤ sig - 1
      · have h1 : f.units c ≤ (sig - 1) * 2 ^ k := by
          rw [← units_sig f k (sig - 1) (by omega) hb]
          exact (units_strictMono f).monotone (by omega)
        have h2 : (f.units c : ℚ) ≤ ((sig : ℚ) - 1) * 2 ^ k := by
          have : ((sig - 1 : ℕ) : ℚ) = (sig : ℚ) - 1 := by push_cast [Nat.cast_sub (by omega : 1 ≤ sig)]; ring
          rw [← this]; exact_mod_cast h1
        have h3 : (f.units c : ℚ) / 2 ^ k ≤ sig - 1 := by rw [div_le_iff₀ h2k]; exact h2
        have h4 : |(f.units c : ℚ) / 2 ^ k - S| = S - (f.units c : ℚ) / 2 ^ k := by
          rw [abs_of_nonpos (by linarith)]; ring
        rw [h4]
        rcases lt_or_ge (|(sig : ℚ) - S|) (S - (f.units c : ℚ) / 2 ^ k) with h5 | h5
        · exact .inl h5
        · right
          have : (sig : ℚ) - S = 1/2 := by linarith
          refine ⟨le_antisymm ?_ h5, .inl this⟩
          rw [this, abs_of_pos (by norm_num)]; linarith
      · -- sig = 2^p, k ≥ 1, S ≥ sig
        have hs' : sig = 2 ^ f.fracBits := by omega
        have hk : k ≠ 0 := by omega
        have hS' : (sig : ℚ) ≤ S := by rw [hs']; push_cast; exact hS2.resolve_left hk
        have h1 : f.units c < sig * 2 ^ k := by rw [← hvB]; exact units_strictMono f h
        have h2 : (f.units c : ℚ) / 2 ^ k < sig := by rw [div_lt_iff₀ h2k]; exact_mod_cast h1
        left
        rw [abs_of_nonpos (by linarith), abs_of_nonpos (by linarith)]; linarith
    · by_cases hb : sig + 1 ≤ 2 * 2 ^ f.fracBits
      · have h1 : (sig + 1) * 2 ^ k ≤ f.units c := by
          rw [← units_sig f k (sig + 1) hb (by omega)]
          exact (units_strictMono f).monotone (by omega)
        have h2 : (sig : ℚ) + 1 ≤ (f.units c : ℚ) / 2 ^ k := by rw [le_div_iff₀ h2k]; exact_mod_cast h1
        have h4 : |(f.units c : ℚ) / 2 ^ k - S| = (f.units c : ℚ) / 2 ^ k - S := abs_of_nonneg (by linarith)
        rw [h4]
        rcases lt_or_ge (|(sig : ℚ) - S|) ((f.units c : ℚ) / 2 ^ k - S) with h5 | h5
        · exact .inl h5
        · right
          have : S - sig = 1/2 := by linarith
          refine ⟨le_antisymm ?_ h5, .inr this⟩
          rw [abs_sub_comm, this, abs_of_pos (by norm_num)]; linarith
      · have hs' : sig = 2 * 2 ^ f.fracBits := by omega
        have hS' : S < sig := by rw [hs']; push_cast; exact hS
        have h1 : sig * 2 ^ k < f.units c := by rw [← hvB]; exact units_strictMono f h
        have h2 : (sig : ℚ) < (f.units c : ℚ) / 2 ^ k := by rw [lt_div_iff₀ h2k]; exact_mod_cast h1
        left
        rw [abs_of_nonneg (by linarith), abs_of_nonneg (by linarith)]; linarith
  have scale : ∀ c, |f.value c - S * 2 ^ k * (2 : ℚ) ^ (1 - (f.bias : ℤ) - f.fracBits)| =
      |(f.units c : ℚ) / 2 ^ k - S| * (2 ^ k * (2 : ℚ) ^ (1 - (f.bias : ℤ) - f.fracBits)) := by
    intro c
    have e := abs_of_pos (mul_pos h2k hu)
    rw [value_eq_units]; conv_rhs => rw [← e]
    rw [← abs_mul]
    congr 1
    field_simp
  have scaleB : |f.value (k * 2 ^ f.fracBits + sig) -
      S * 2 ^ k * (2 : ℚ) ^ (1 - (f.bias : ℤ) - f.fracBits)| =
        |(sig : ℚ) - S| * (2 ^ k * (2 : ℚ) ^ (1 - (f.bias : ℤ) - f.fracBits)) := by
    rw [scale, hvB]; congr 2; push_cast; field_simp
  have hpos := mul_pos h2k hu
  refine ⟨⟨hB, fun c _ hc => ?_⟩, fun hne => ⟨hB, fun c _ hc => ?_⟩⟩
  · rw [scaleB, scale]
    rcases key c hc with h | ⟨h, h'⟩
    · left; exact mul_lt_mul_of_pos_right h hpos
    · right; exact ⟨by rw [h], by rw [hpar]; exact n3 h'⟩
  · rw [scaleB, scale]
    rcases key c hc with h | ⟨h, h'⟩
    · exact mul_lt_mul_of_pos_right h hpos
    · exact absurd h' (by tauto)

/-- The scale, significand and scaled quotient `rneBits` works with, for a positive quotient below 2^bias. -/
theorem rneBits_sig (f : FloatFormat) (hb : 1 ≤ f.bias) (n d : Nat) (hn : 0 < n) (hd : 0 < d)
    (hfin : (n : ℚ) / d < (2 : ℚ) ^ ((f.bias : ℤ))) (hinf : (2 * f.bias + 1) * 2 ^ f.fracBits ≤ f.infBits) :
    ∃ k sig : ℕ, ∃ S : ℚ, (n : ℚ) / d = S * 2 ^ k * (2 : ℚ) ^ (1 - (f.bias : ℤ) - f.fracBits) ∧
      rneBits f n d = k * 2 ^ f.fracBits + sig ∧
      S < 2 * 2 ^ f.fracBits ∧ (k = 0 ∨ (2 : ℚ) ^ f.fracBits ≤ S) ∧
      ((sig : ℚ) - S ≤ 1/2) ∧ (S - sig ≤ 1/2) ∧ ((sig : ℚ) - S = 1/2 ∨ S - sig = 1/2 → sig % 2 = 0) ∧
      k * 2 ^ f.fracBits + sig < f.infBits := by
  obtain ⟨l1, l2⟩ := ratioLog2_spec hn hd
  set e := max (ratioLog2 n d) (1 - (f.bias : Int)) with he
  have heB : ratioLog2 n d < f.bias := by
    have := lt_of_le_of_lt l1 hfin
    exact (zpow_lt_zpow_iff_right₀ (by norm_num : (1:ℚ) < 2)).1 this
  set ulp := e - (f.fracBits : Int) with hulp
  have hk0 : 0 ≤ e + f.bias - 1 := by omega
  obtain ⟨k, hk⟩ : ∃ k : ℕ, e + f.bias - 1 = k := ⟨_, (Int.toNat_of_nonneg hk0).symm⟩
  set N := n * 2 ^ (-ulp).toNat with hN
  set D := d * 2 ^ ulp.toNat with hD
  have hDpos : 0 < D := by positivity
  obtain ⟨s1, s2, s3⟩ := divNearestEven_spec (n := N) hDpos
  set sig := divNearestEven N D with hsig
  have hDq : (0 : ℚ) < D := by exact_mod_cast hDpos
  have hdq : (0 : ℚ) < d := by exact_mod_cast hd
  have hS : (N : ℚ) / D = (n : ℚ) / d * (2 : ℚ) ^ (-ulp) := by
    have : (2 : ℚ) ^ (-ulp) = 2 ^ (-ulp).toNat / 2 ^ ulp.toNat := by
      rw [eq_div_iff (by positivity), ← zpow_natCast, ← zpow_natCast, ← zpow_add₀ (by norm_num)]
      congr 1; omega
    rw [this, hN, hD]; push_cast; field_simp
  have hu : ulp = k + (1 - (f.bias : ℤ) - f.fracBits) := by omega
  have hcancel : (2 : ℚ) ^ (-ulp) * (2 : ℚ) ^ ulp = 1 := by rw [← zpow_add₀ (by norm_num)]; simp
  have hlt : (N : ℚ) / D < 2 * 2 ^ f.fracBits := by
    rw [hS]
    calc (n : ℚ) / d * (2 : ℚ) ^ (-ulp) < (2 : ℚ) ^ (ratioLog2 n d + 1) * (2 : ℚ) ^ (-ulp) := by
          apply mul_lt_mul_of_pos_right l2 (by positivity)
      _ = (2 : ℚ) ^ (ratioLog2 n d + 1 - ulp) := by rw [← zpow_add₀ (by norm_num)]; rfl
      _ ≤ (2 : ℚ) ^ ((f.fracBits : ℤ) + 1) := zpow_le_zpow_right₀ (by norm_num) (by omega)
      _ = 2 * 2 ^ f.fracBits := by rw [zpow_add₀ (by norm_num)]; simp [mul_comm]
  have hge : k = 0 ∨ (2 : ℚ) ^ f.fracBits ≤ (N : ℚ) / D := by
    rcases Nat.eq_zero_or_pos k with h | h
    · exact .inl h
    · right
      have : e = ratioLog2 n d := by omega
      rw [hS]
      calc (2 : ℚ) ^ f.fracBits = (2 : ℚ) ^ (ratioLog2 n d) * (2 : ℚ) ^ (-ulp) := by
            rw [← zpow_add₀ (by norm_num), ← zpow_natCast]; congr 1; omega
        _ ≤ _ := mul_le_mul_of_nonneg_right l1 (by positivity)
  have c1 : (2 : ℚ) * (sig * D) ≤ 2 * N + D := by exact_mod_cast s1
  have c2 : (2 : ℚ) * N ≤ 2 * (sig * D) + D := by exact_mod_cast s2
  have t1 : (sig : ℚ) - (N : ℚ) / D ≤ 1/2 := by
    have : (N : ℚ) / D * D = N := div_mul_cancel₀ _ hDq.ne'
    by_contra h
    have : ((sig : ℚ) - N / D - 1/2) * D > 0 := mul_pos (by linarith) hDq
    nlinarith
  have t2 : (N : ℚ) / D - sig ≤ 1/2 := by
    have : (N : ℚ) / D * D = N := div_mul_cancel₀ _ hDq.ne'
    by_contra h
    have : ((N : ℚ) / D - sig - 1/2) * D > 0 := mul_pos (by linarith) hDq
    nlinarith
  have t3 : (sig : ℚ) - (N : ℚ) / D = 1/2 ∨ (N : ℚ) / D - sig = 1/2 → sig % 2 = 0 := by
    have hc : (N : ℚ) / D * D = N := div_mul_cancel₀ _ hDq.ne'
    rintro (h | h)
    · apply s3; right
      have : (2 : ℚ) * (sig * D) = 2 * N + D := by
        have : (sig : ℚ) = N / D + 1/2 := by linarith
        rw [this]; linarith
      exact_mod_cast this
    · apply s3; left
      have : (2 : ℚ) * N = 2 * (sig * D) + D := by
        have : (N : ℚ) / D = sig + 1/2 := by linarith
        rw [← hc, this]; ring
      exact_mod_cast this
  have hsigle : sig ≤ 2 * 2 ^ f.fracBits := by
    by_contra h
    have : 2 * 2 ^ f.fracBits + 1 ≤ sig := Nat.lt_of_not_le h
    have : (2 * 2 ^ f.fracBits + 1 : ℚ) ≤ sig := by exact_mod_cast this
    linarith
  have hfinB : k * 2 ^ f.fracBits + sig < f.infBits := by
    have h1 : k + 3 ≤ 2 * f.bias + 1 := by omega
    have h2 : (k + 3) * 2 ^ f.fracBits ≤ (2 * f.bias + 1) * 2 ^ f.fracBits := Nat.mul_le_mul_right _ h1
    have h3 : 0 < 2 ^ f.fracBits := by positivity
    have h4 : (k + 3) * 2 ^ f.fracBits = k * 2 ^ f.fracBits + 3 * 2 ^ f.fracBits := Nat.add_mul _ _ _
    omega
  refine ⟨k, sig, (N : ℚ) / D, ?_, ?_, hlt, hge, t1, t2, t3, hfinB⟩
  · rw [hS, mul_assoc, mul_assoc]
    have : (2 : ℚ) ^ k * (2 : ℚ) ^ (1 - (f.bias : ℤ) - f.fracBits) = (2 : ℚ) ^ ulp := by
      rw [hu, zpow_add₀ (by norm_num), zpow_natCast]
    rw [this, hcancel, mul_one]
  · unfold rneBits
    rw [if_neg (by omega)]
    dsimp only
    rw [← he, ← hulp, ← hN, ← hD, ← hsig, show (e + (f.bias : ℤ) - 1).toNat = k by omega]
    exact min_eq_left hfinB.le

theorem value_zeroBits (f : FloatFormat) : f.value 0 = 0 := by simp [FloatFormat.value]

theorem nearest_zero (f : FloatFormat) (h : 0 < f.infBits) : f.IsStrictlyNearest 0 0 := by
  refine ⟨h, fun c _ hc => ?_⟩
  rw [value_zeroBits, sub_zero, sub_zero, abs_zero, value_eq_units]
  have : 0 < f.units c := by
    have := units_strictMono f (Nat.pos_of_ne_zero hc)
    omega
  have : (0 : ℚ) < f.units c := by exact_mod_cast this
  positivity
theorem nearest_of_strictly {f : FloatFormat} {q : ℚ} {b : Nat} (h : f.IsStrictlyNearest q b) : f.IsNearest q b :=
  ⟨h.1, fun c hc h' => .inl (h.2 c hc h')⟩

/-- All `rneBits` does below overflow: it gives the nearest finite value, ties to even (R18). -/
theorem rneBits_nearest (f : FloatFormat) (hp : 1 ≤ f.fracBits) (hb : 1 ≤ f.bias) (n d : Nat) (hd : 0 < d)
    (hfin : (n : ℚ) / d < (2 : ℚ) ^ ((f.bias : ℤ))) (hinf : (2 * f.bias + 1) * 2 ^ f.fracBits ≤ f.infBits) :
    f.IsNearest ((n : ℚ) / d) (rneBits f n d) := by
  rcases Nat.eq_zero_or_pos n with rfl | hn
  · have : 0 < f.infBits := lt_of_lt_of_le (by positivity) hinf
    simpa [rneBits] using nearest_of_strictly (nearest_zero f this)
  · obtain ⟨k, sig, S, h1, h2, h3, h4, h5, h6, h7, h8⟩ := rneBits_sig f hb n d hn hd hfin hinf
    rw [h1, h2]
    exact (nearest_of_sig f hp k sig S h3 h4 h5 h6 h7 h8).1

theorem value_lt {f : FloatFormat} {a b : ℕ} (h : a < b) : f.value a < f.value b := by
  rw [value_eq_units, value_eq_units]
  have : (f.units a : ℚ) < f.units b := by exact_mod_cast units_strictMono f h
  exact mul_lt_mul_of_pos_right this (by positivity)

/-- `floatRatio` is the value of the pattern. -/
theorem floatRatio_value (f : FloatFormat) (b : ℕ) :
    f.value b = ((floatRatio f b).1 : ℚ) / (floatRatio f b).2 ∧ 0 < (floatRatio f b).2 := by
  unfold floatRatio FloatFormat.value
  dsimp only
  refine ⟨?_, by positivity⟩
  have key : ∀ (s : ℕ) (e : ℤ), (s : ℚ) * 2 ^ e =
      ((s * 2 ^ e.toNat : ℕ) : ℚ) / (2 ^ (-e).toNat : ℕ) := by
    intro s e
    rcases le_total 0 e with h | h
    · lift e to ℕ using h; simp
    · obtain ⟨k, rfl⟩ : ∃ k : ℕ, e = -k := ⟨(-e).toNat, by omega⟩
      simp [zpow_neg, div_eq_mul_inv]
  split
  · next h => rw [h, key]; simp
  · next h =>
    rw [max_eq_left (Nat.one_le_iff_ne_zero.2 h), key]

end Sys2Proof.Machine
end

