-- ==== Sys2Proof/Laws/PerInstr.lean ====
section
/-! SUPPORT. What holds of every command as syntax, said command by command: its word carries its row's `match`
under the table's `mask` (spec/opcode_table.json). -/

/-- The `match` of a command's row of spec/opcode_table.json. -/
def Sys2Proof.Laws.TableRow.rowMatch : Sys2Proof.Instr → Sys2Proof.CmdWord
  | .nop     => 0x0000000000
  | .seed _  => 0x0100000000
  | .nextU32 => 0x0200000000
  | .nextU64 => 0x0300000000
  | .nextF32 => 0x0400000000
  | .nextF64 => 0x0500000000

/-- A command's word under the mask 0xff00000000 is its row's `match`. -/
def Sys2Proof.Laws.TableRow.Statement (i : Sys2Proof.Instr) : Prop :=
  Sys2Proof.encode i &&& 0xff00000000 = Sys2Proof.Laws.TableRow.rowMatch i

theorem Sys2Proof.Laws.TableRow.nop : Sys2Proof.Laws.TableRow.Statement .nop := by
  unfold Sys2Proof.Laws.TableRow.Statement
  decide

theorem Sys2Proof.Laws.TableRow.seed (v : Sys2Proof.Word) : Sys2Proof.Laws.TableRow.Statement (.seed v) := by
  have hm : (0xff00000000 : Sys2Proof.CmdWord) = 0xff#8 ++ 0#32 := by decide
  have hr : (0x0100000000 : Sys2Proof.CmdWord) = 0x01#8 ++ 0#32 := by decide
  change (0x01#8 ++ v) &&& (0xff00000000 : Sys2Proof.CmdWord) = 0x0100000000
  rw [hm, hr, BitVec.and_append]
  simp

theorem Sys2Proof.Laws.TableRow.nextU32 : Sys2Proof.Laws.TableRow.Statement .nextU32 := by
  unfold Sys2Proof.Laws.TableRow.Statement
  decide

theorem Sys2Proof.Laws.TableRow.nextU64 : Sys2Proof.Laws.TableRow.Statement .nextU64 := by
  unfold Sys2Proof.Laws.TableRow.Statement
  decide

theorem Sys2Proof.Laws.TableRow.nextF32 : Sys2Proof.Laws.TableRow.Statement .nextF32 := by
  unfold Sys2Proof.Laws.TableRow.Statement
  decide

theorem Sys2Proof.Laws.TableRow.nextF64 : Sys2Proof.Laws.TableRow.Statement .nextF64 := by
  unfold Sys2Proof.Laws.TableRow.Statement
  decide
end

