-- ==== Sys2Proof/Laws/Run.lean ====
section
/-! SUPPORT. Runs of steps. -/

namespace Sys2Proof.Machine

/-- A run whose first step answers a next state. -/
theorem runSteps_succ {s t : State} (h : step s = .next t) (k : Nat) : runSteps (k + 1) s = runSteps k t := by
  simp only [runSteps, h]

/-- The coming edge accepts its word exactly when the port is ready and a command is offered (R71). -/
theorem acceptedWord_of_accept {s : State} (h : s.cmdReady = true) (hv : s.pins.cmdValid = true) :
    s.acceptedWord = some (s.accept s.pins).1 := by
  simp [State.acceptedWord, h, hv]

/-- An edge that accepts nothing. -/
theorem acceptedWord_of_none {s : State} (h : s.cmdReady = false ∨ s.pins.cmdValid = false) :
    s.acceptedWord = none := by
  rcases h with h | h <;> simp [State.acceptedWord, h]

/-- The words of a run whose first step answers a next state. -/
theorem acceptedWords_succ {s t : State} (h : step s = .next t) (k : Nat) :
    acceptedWords (k + 1) s = s.acceptedWord.toList ++ acceptedWords k t := by
  simp only [acceptedWords, h]

/-- Runs are the host's runs of the machine. -/
theorem core_run_eq (k : Nat) (s : State) : Sys2Proof.core.run k s = runSteps k s := by
  induction k generalizing s with
  | zero => rfl
  | succ k ih =>
    refine (Host.Core.run.eq_2 Sys2Proof.core s k).trans ?_
    rw [runSteps]
    cases h : step s with
    | next t => simpa only [show Sys2Proof.core.step s = .next t from h] using ih t
    | fault r => exact nomatch r
    | refused r =>
      simp only [show Sys2Proof.core.step s = .refused r from h]
      rfl

end Sys2Proof.Machine
end

