-- ==== Sys2Proof/Tests/Slice0.lean ====
section
/-! SUPPORT. Tests of the model against values written in the spec (95_test_vectors.md and the rules' own examples),
and for every statement with hypotheses a state or operands that meet them. -/

namespace Sys2Proof.Tests

open Sys2Proof.Machine

/-! ### WellFormed: one ill-formed statement for each check (R82), and the literals at the ends of their ranges -/

theorem test_wf_seed_too_large : (AsmStmt.op .seed (some 4294967296)).wf = false := by decide
theorem test_wf_seed_negative : (AsmStmt.op .seed (some (-1))).wf = false := by decide
theorem test_wf_seed_missing : (AsmStmt.op .seed none).wf = false := by decide
theorem test_wf_operand_not_allowed : (AsmStmt.op .nop (some 0)).wf = false := by decide
theorem test_wf_raw_too_large : (AsmStmt.rawCmd 1099511627776).wf = false := by decide
theorem test_wf_raw_negative : (AsmStmt.rawCmd (-1)).wf = false := by decide
theorem test_wf_ends_of_ranges :
    (AsmStmt.op .seed (some 0)).wf = true ∧ (AsmStmt.op .seed (some 4294967295)).wf = true ∧
      (AsmStmt.rawCmd 1099511627775).wf = true ∧ (AsmStmt.op .nextF64 none).wf = true := by decide
theorem test_refused_statement_has_no_word : assemble (.op .seed (some 4294967296)) = none := by decide

/-! ### Decoding: words written out, `OP` in bits 39:32 and `DATA` in bits 31:0 (R73, R77, R81) -/

theorem test_decode_nop : decode 0b00000000_00000000000000000000000000000000 = some .nop := by decide
theorem test_decode_seed : decode 0b00000001_10000000000000000000000000000101 = some (.seed 0x80000005) := by decide
theorem test_decode_nextU32 : decode 0b00000010_00000000000000000000000000000000 = some .nextU32 := by decide
theorem test_decode_nextU64 : decode 0b00000011_00000000000000000000000000000000 = some .nextU64 := by decide
theorem test_decode_nextF32 : decode 0b00000100_00000000000000000000000000000000 = some .nextF32 := by decide
theorem test_decode_nextF64 : decode 0b00000101_00000000000000000000000000000000 = some .nextF64 := by decide
theorem test_decode_ignores_data : decode 0x02FFFFFFFF = some .nextU32 := by decide
theorem test_decode_reserved : decode 0x06FFFFFFFF = none ∧ decode 0xFF00000000 = none := by decide
theorem test_encode_seed : encode (.seed 0xFFFFFFFF) = 0x01FFFFFFFF := by decide
theorem test_decodeTableWord : decodeTableWord 40 0x0100000001 = some (.seed 1) := by decide

/-! ### The assembler (R81, R82): the table of R81 and lines it refuses -/

theorem test_line_seed_hex : assembleLine "SEED 0xFFFFFFFF".toList = .ok (some 0x01FFFFFFFF) := by decide
theorem test_line_seed_decimal :
    assembleLine "  SEED 1   ; the reference seed".toList = .ok (some 0x0100000001) := by decide
theorem test_line_next_f64 : assembleLine "NEXT_F64".toList = .ok (some 0x0500000000) := by decide
theorem test_line_raw : assembleLine ".cmd 0x0600000000".toList = .ok (some 0x0600000000) := by decide
theorem test_line_comment_only : assembleLine " ; nothing".toList = .ok none := by decide
theorem test_line_seed_too_large : assembleLine "SEED 4294967296".toList = .error .notWellFormed := by decide
theorem test_line_seed_negative : assembleLine "SEED -1".toList = .error .notWellFormed := by decide
/-- Assumption 11: a signed zero is 0. -/
theorem test_line_seed_signed_zero : assembleLine "SEED -0".toList = .ok (some 0x0100000000) := by decide
theorem test_line_operand_not_allowed : assembleLine "NOP 1".toList = .error .notWellFormed := by decide
theorem test_line_not_a_literal : assembleLine "SEED 0x".toList = .error .notALiteral := by decide
theorem test_line_not_a_statement : assembleLine "TWIST".toList = .error .notAStatement := by decide

/-! ### The algorithm -/

/-- R100 and V-SEED-2's hand checks: `mt[1]` for seeds 1, 0 and 0xFFFFFFFF, and `mt[2]` for seed 0. -/
theorem test_initNext : initNext 1 1 = 0x6c078966 ∧ initNext 1 0 = 1 ∧ initNext 1 0xffffffff = 0x4fe1da6d ∧
    initNext 2 1 = 1812433255 := by decide

/-- V-SEED-1's last step: word 623 from word 622. -/
theorem test_initStep_last :
    mtWord (initStep ((Vector.replicate 624 0).set 622 0x8e41b7fc) 622) 623 = 0x7b5687a5 := by decide +kernel

/-- V-TWIST-1, steps 0 (y even) and 1 (y odd). -/
theorem test_twistWord : twistWord 0x00000001 0x6c078966 0xaab7be29 = 0x9cb47a9a ∧
    twistWord 0x6c078966 0xdd5254a5 0x06700b85 = 0xb1d19108 := by decide

/-- V-TWIST-1, step 226: the last offset word of the old generation is word 623. -/
theorem test_twistStep_226 :
    mtWord (twistStep ((((Vector.replicate 624 0).set 226 0x4a1213cd).set 227 0x804dfc5f).set 623 0x7b5687a5) 226)
      226 = 0xe278c955 := by decide +kernel

/-- V-TWIST-1, step 227: the offset word is the rewritten word 0. -/
theorem test_twistStep_227 :
    mtWord (twistStep ((((Vector.replicate 624 0).set 227 0x804dfc5f).set 228 0x7d5d5695).set 0 0x9cb47a9a) 227)
      227 = 0x7b12610f := by decide +kernel

/-- V-TWIST-1, step 623: the neighbour is the rewritten word 0 (90 C1). -/
theorem test_twistStep_623 :
    mtWord (twistStep ((((Vector.replicate 624 0).set 623 0x7b5687a5).set 0 0x9cb47a9a).set 396 0x08a21e14) 623)
      623 = 0x06f82359 := by decide +kernel

/-- V-TEMPER. -/
theorem test_temper : temper 0x9cb47a9a = 1791095845 ∧ temper 0xb1d19108 = 4282876139 ∧ temper 0x00000800 = 71567760 ∧
    temper 0x12345678 = 729696813 ∧ temper 0x80000000 = 2282758660 ∧ temper 0xffffffff = 1876958200 := by decide

/-- R17 and V-U64's first row. -/
theorem test_joinWords : joinWords 1791095845 4282876139 = 0x6ac1f425ff4780eb := by decide

/-- V-F32, SINGLE_ROUNDING. -/
theorem test_f32_single : u32ToF32 .singleRounding 0x01000001 = 0x3b800001 ∧
    u32ToF32 .singleRounding 0xffffff7f = 0x3f7fffff ∧ u32ToF32 .singleRounding 0xffffff80 = 0x3f800000 ∧
    u32ToF32 .singleRounding 0x6ac1f425 = 0x3ed583e8 := by decide

/-- V-F32, NAIVE_F32. -/
theorem test_f32_naive : u32ToF32 .naiveF32 0x01000001 = 0x3b800000 ∧ u32ToF32 .naiveF32 0xfffffe80 = 0x3f7ffffe ∧
    u32ToF32 .naiveF32 0xffffff80 = 0x3f800000 := by decide

/-- V-F32, VIA_F64. -/
theorem test_f32_viaF64 : u32ToF32 .viaF64 0xfffffd7f = 0x3f7ffffe ∧ u32ToF32 .viaF64 0xffffff7f = 0x3f800000 ∧
    u32ToF32 .viaF64 0x01000001 = 0x3b800001 := by decide

/-- V-F64, the U32 source. -/
theorem test_f64_u32 : u32ToF64 1 = 0x3df0000000100000 ∧ u32ToF64 0x6ac1f425 = 0x3fdab07d095ab07d ∧
    u32ToF64 0xfffffffe = 0x3fefffffffe00000 ∧ u32ToF64 0xffffffff = 0x3ff0000000000000 := by decide

/-- V-F64, the U64 source. -/
theorem test_f64_u64 : u64ToF64 1 = 0x3bf0000000000000 ∧ u64ToF64 0x6ac1f425ff4780eb = 0x3fdab07d097fd1e0 ∧
    u64ToF64 0xfffffffffffffbff = 0x3fefffffffffffff ∧ u64ToF64 0xfffffffffffffc00 = 0x3ff0000000000000 := by
  decide

/-! ### One command on a small state -/

/-- A seeded state with the cursor at `i`, the words `a` and `b` at `i` and after it, and 0 elsewhere. -/
def seededAt (i : Fin 625) (a b : Word) : State :=
  { State.reset with
    mt := mtWrite (mtWrite (Vector.replicate 624 0) i.val a) (i.val + 1) b, index := i, seeded := true }

/-- The response, cursor and flags an outcome leaves. -/
def shown : Host.Outcome State Fault Refusal → Option (Option Response × Nat × Bool × Bool)
  | .next t    => some (t.rsp, t.index.val, t.seeded, t.stickyErr)
  | .fault _   => none
  | .refused _ => none

/-- P2's `NOP` right after reset. -/
theorem test_nop : shown (exec .nop State.reset) = some (some ⟨0, 0⟩, 0, false, false) := by decide
theorem test_nop_seeded : shown (exec .nop (seededAt 5 1 2)) = some (some ⟨0, 0⟩, 5, true, false) := by decide

/-- V-DECODE: `SEED 1` unseeded, and seeded with `sticky_err = 1`, which stays. -/
theorem test_seed : shown (exec (.seed 1) State.reset) = some (some ⟨0, 0⟩, 624, true, false) := by decide
theorem test_seed_keeps_sticky :
    shown (exec (.seed 1) { seededAt 5 1 2 with stickyErr := true }) = some (some ⟨0, 0⟩, 624, true, true) := by
  decide

/-- V-DECODE: a draw while unseeded. V-TEMPER and R132: a draw at 623 does not twist. -/
theorem test_nextU32_unseeded : shown (exec .nextU32 State.reset) = some (some ⟨2, 0⟩, 0, false, true) := by
  decide
theorem test_nextU32 : shown (exec .nextU32 (seededAt 623 0x9cb47a9a 0)) =
    some (some ⟨0, 1791095845⟩, 624, true, false) := by decide +kernel

theorem test_nextU64_unseeded : shown (exec .nextU64 State.reset) = some (some ⟨2, 0⟩, 0, false, true) := by
  decide
/-- V-U64's first row, from the words of V-TEMPER. -/
theorem test_nextU64 : shown (exec .nextU64 (seededAt 622 0x9cb47a9a 0xb1d19108)) =
    some (some ⟨0, 0x6ac1f425ff4780eb⟩, 624, true, false) := by decide +kernel

theorem test_nextF32_unseeded : shown (exec .nextF32 State.reset) = some (some ⟨2, 0⟩, 0, false, true) := by
  decide
/-- R142's example. -/
theorem test_nextF32 : shown (exec .nextF32 (seededAt 1 0x9cb47a9a 0)) =
    some (some ⟨0, 0x3ed583e8⟩, 2, true, false) := by decide

theorem test_nextF64_unseeded : shown (exec .nextF64 State.reset) = some (some ⟨2, 0⟩, 0, false, true) := by
  decide
/-- R146's example, under this hardware's `U32`. -/
theorem test_nextF64 : shown (exec .nextF64 (seededAt 1 0x9cb47a9a 0xb1d19108)) =
    some (some ⟨0, 0x3fdab07d095ab07d⟩, 2, true, false) := by decide
/-- R146's example, under `U64`. -/
theorem test_nextF64_from_u64 : shown (nextF64With .u64 (seededAt 1 0x9cb47a9a 0xb1d19108)) =
    some (some ⟨0, 0x3fdab07d097fd1e0⟩, 3, true, false) := by decide

/-- V-DECODE: `.cmd 0x0900000000` unseeded, and the highest reserved opcode seeded. -/
theorem test_illegal_op_unseeded :
    shown (runCommand 0x0900000000 State.reset) = some (some ⟨1, 0⟩, 0, false, true) := by decide
theorem test_illegal_op_seeded :
    shown (runCommand 0xFF00000000 (seededAt 7 1 2)) = some (some ⟨1, 0⟩, 7, true, true) := by decide

/-- The host's own question: the word placed runs as the first instruction after reset. -/
theorem test_withFetchWord :
    shown (step (State.reset.withFetchWord 40 0x0100000001)) = some (some ⟨0, 0⟩, 624, true, false) := by
  decide

/-- R200: an edge under `rst` clears the flags and cancels the held response. -/
theorem test_reset_edge : shown (step { seededAt 7 1 2 with
    stickyErr := true, rsp := some ⟨0, 9⟩, inputs := [⟨true, true, 0, true⟩] }) =
      some (none, 0, false, false) := by decide

/-- V-DECODE's note: `STATUS` reads 0x00000002 after an error while unseeded. -/
theorem test_status : (State.setStickyErr State.reset).statusWord = 0x00000002 := by decide

/-- R20: `repeat 2 { … }` is the body twice. -/
theorem test_repeat : repeatProgram 2 [0x0200000000, 0x0000000000] =
    [0x0200000000, 0x0000000000, 0x0200000000, 0x0000000000] := by decide

/-! ### For each statement with hypotheses, what meets them -/

/-- A reset machine whose host offers `w` at the coming edge. -/
def offering (w : CmdWord) : State := { State.reset with inputs := [offerSample w] }

/-- A seeded machine with a response held and the host's `rsp_ready` as given. -/
def holding (ready : Bool) : State :=
  { seededAt 1 1 2 with stickyErr := true, rsp := some ⟨0, 9⟩, inputs := [⟨false, true, 0, ready⟩] }

theorem test_witness_DataMattersToSeedAlone : (2 : BitVec 8) ≠ 1 ∧ Mnemonic.nextF64 ≠ .seed := by decide
theorem test_witness_AssemblerNeverTruncates : Mnemonic.nextU32 ≠ .seed ∧ (0 : Int) ≤ 4294967295 ∧
    (4294967295 : Int) ≤ 2 ^ 32 - 1 ∧ (1099511627775 : Int) ≤ 2 ^ 40 - 1 := by decide
theorem test_witness_AssembledWordDecodesToItsMnemonic :
    assemble (.op .seed (some 4294967295)) = some 0x01FFFFFFFF := by decide
theorem test_witness_AssemblerNamesTheFirstBadLine :
    assembleProgram ["NOP".toList, "SEED".toList, "NOP 1".toList] = .error (2, .notWellFormed) ∧
      assembleProgram ["SEED 1 ; seed".toList, [], "NEXT_U32".toList] = .ok [0x0100000001, 0x0200000000] := by
  decide
theorem test_witness_StepRunsTheAcceptedCommand :
    (offering 0x0100000001).rsp = none ∧ (offering 0x0100000001).offered = [] ∧
      (offering 0x0100000001).inputs = [⟨false, true, 0x0100000001, false⟩] ∧
      decode 0x0100000001 = some (.seed 1) := by decide
theorem test_witness_StepRunsTheAcceptedCommand_held :
    let s := { offering 0x0200000000 with offered := [0x0200000000] }
    s.rsp = none ∧ s.offered = [0x0200000000] ∧ s.inputs = [⟨false, true, 0x0200000000, false⟩] ∧
      decode 0x0200000000 = some .nextU32 := by decide
theorem test_witness_ReservedOpcodeIsAnsweredIllegalOp :
    (offering 0x0600000000).rsp = none ∧ (offering 0x0600000000).offered = [] ∧
      (offering 0x0600000000).inputs = [⟨false, true, 0x0600000000, false⟩] ∧
      6 ≤ ((0x0600000000 : CmdWord) >>> 32).toNat ∧ 6 ≤ ((0xFFFFFFFFFF : CmdWord) >>> 32).toNat := by decide
theorem test_witness_PlacedWordRunsNext : decodeTableWord 40 0x0500000000 = some .nextF64 := by decide
theorem test_witness_AcceptedWordWasOffered :
    let s := { offering 0x0200000000 with offered := [0x0200000000] }
    s.pins.rst = false ∧ s.rsp = none ∧ s.pins.cmdValid = true ∧ ∀ x ∈ s.offered, x = s.pins.cmdWord :=
  ⟨rfl, rfl, rfl, fun _ h => List.mem_singleton.1 h⟩
theorem test_witness_AcceptedWordWasOffered_notAccepted :
    ((holding false).cmdReady = false ∧ (holding false).pins.cmdValid = true) ∧ State.reset.pins.cmdValid = false := by
  decide
theorem test_witness_StateIsHeldBetweenCommands :
    ((holding false).pins.rst = false ∧ (holding false).cmdReady = false) ∧
      State.reset.pins.rst = false ∧ State.reset.rsp = none ∧ State.reset.pins.cmdValid = false := by decide
theorem test_witness_ResponseIsHeldUntilTaken :
    ((holding false).pins.rst = false ∧ (holding false).rsp = some ⟨0, 9⟩ ∧ (holding false).pins.rspReady = false) ∧
      (holding true).pins.rst = false ∧ (holding true).rsp = some ⟨0, 9⟩ ∧ (holding true).pins.rspReady = true := by
  decide
theorem test_witness_EveryAcceptedCommandIsAnswered :
    (offering 0xFF00000000).cmdReady = true ∧ (offering 0xFF00000000).pins.cmdValid = true := by decide
theorem test_witness_ResetCancelsAndClears :
    ({ holding true with inputs := [⟨true, true, 0, true⟩] } : State).pins.rst = true := by decide
/-- A seeded machine with `sticky_err` set, under `rst`. -/
def underReset : State := { holding true with inputs := [⟨true, true, 0, true⟩] }

theorem test_witness_SeededMeansSeedSinceReset :
    (∃ t, runCommand 0x0100000000 State.reset = .next t) ∧ underReset.pins.rst = true ∧
      (∃ t, step underReset = .next t ∧ underReset.seeded = true ∧ t.seeded = false) ∧
      State.reset.seeded = false ∧ ∃ t, exec .nextU32 State.reset = .next t :=
  ⟨⟨_, rfl⟩, rfl, ⟨_, rfl, rfl, rfl⟩, rfl, _, rfl⟩
theorem test_witness_StickyErrRecordsErrors :
    (∃ t, runCommand 0x0600000000 State.reset = .next t) ∧ underReset.pins.rst = true ∧
      ∃ t, step underReset = .next t ∧ underReset.stickyErr = true ∧ t.stickyErr = false :=
  ⟨⟨_, rfl⟩, rfl, _, rfl, rfl, rfl⟩
theorem test_witness_DrawBeforeSeedIsRefused : State.reset.seeded = false ∧ Instr.nop = .nop ∧
    ∃ v, Instr.seed 0 = .seed v := ⟨rfl, rfl, _, rfl⟩
theorem test_witness_NothingStops : (seededAt 624 1 2).seeded = true := rfl
theorem test_witness_ErrorsAreExactlyTheListed :
    (cmdOp 0x0600000000).toNat = 6 ∧ (cmdOp 0xFF00000000).toNat = 255 ∧ (cmdOp 0x0500000000).toNat = 5 ∧
      (cmdOp 0x0200000000).toNat = 2 ∧ (cmdOp 0x0100000000).toNat = 1 ∧ State.reset.seeded = false := by decide
theorem test_witness_StatusShowsTheFlags : 2 ≤ 2 ∧ 2 ≤ 31 := by decide
theorem test_witness_ErrorsChangeNothingElse : ∃ t, runCommand 0xFF00000000 State.reset = .next t ∧
    t.rsp = some ⟨1, 0⟩ ∧ (1 : BitVec 2) ≠ 0 := ⟨_, rfl, rfl, by decide⟩
theorem test_witness_ErrorsChangeNothingElse_notSeeded : ∃ t, runCommand 0x0500000000 State.reset = .next t ∧
    t.rsp = some ⟨2, 0⟩ ∧ (2 : BitVec 2) ≠ 0 := ⟨_, rfl, rfl, by decide⟩
theorem test_witness_SeedWritesTheRecurrence : (1 ≤ 1 ∧ 1 ≤ 623) ∧ 1 ≤ 623 ∧ 623 ≤ 623 := by decide
theorem test_witness_TwistLeavesTheInPlaceWords : 0 ≤ 226 ∧ 226 ≤ 226 ∧ (227 ≤ 227 ∧ 227 ≤ 622) ∧ 227 ≤ 622 := by
  decide
theorem test_witness_TwistReadsOnlyBit31OfWordZero :
    let a := Vector.replicate 624 (0 : Word)
    let b := mtWrite a 0 0x7fffffff
    (mtWord a 0).getLsbD 31 = (mtWord b 0).getLsbD 31 ∧ mtWord a 0 ≠ mtWord b 0 ∧
      ∀ i, 1 ≤ i → i ≤ 623 → mtWord a i = mtWord b i := by
  refine ⟨by decide, by decide, fun i h1 h2 => ?_⟩
  exact (mtWord_mtWrite_other _ _ (by omega)).symm
theorem test_witness_OnlySeedAndTwistWriteMt :
    (∃ t, exec .nextU64 (seededAt 623 1 2) = .next t) ∧ (∃ t, exec .nextU32 (seededAt 624 1 2) = .next t) ∧
      (∃ t, exec .nop (seededAt 624 1 2) = .next t) ∧ (∃ t, exec .nextU32 (seededAt 1 1 2) = .next t) ∧
      ∀ v, Instr.nextU64 ≠ .seed v ∧ Instr.nextU32 ≠ .seed v ∧ Instr.nop ≠ .seed v :=
  ⟨⟨_, rfl⟩, ⟨_, rfl⟩, ⟨_, rfl⟩, ⟨_, rfl⟩, fun _ => ⟨nofun, nofun, nofun⟩⟩
theorem test_witness_EagerFirstTwistIsNotSeen : (seededAt 1 1 2).seeded = true := rfl
theorem test_witness_DrawTakesTheWordAtTheCursor :
    (seededAt 624 1 2).index = 624 ∧ (seededAt 623 1 2).index ≠ 624 ∧ (seededAt 0 1 2).index ≠ 624 := by
  decide
theorem test_witness_NextU32ReturnsTheNextWord :
    ((seededAt 624 1 2).seeded = true ∧ (seededAt 624 1 2).index = 624) ∧
      (seededAt 623 1 2).seeded = true ∧ (seededAt 623 1 2).index ≠ 624 := by decide
theorem test_witness_NextCommands_words : cmdOp 0x0100000001 = 0x01 ∧ cmdOp 0x0200000000 = 0x02 ∧
    cmdOp 0x03FFFFFFFF = 0x03 ∧ cmdOp 0x0400000000 = 0x04 ∧ cmdOp 0x0500000001 = 0x05 ∧
    cmdOp 0x00FFFFFFFF = 0x00 ∧ State.reset.seeded = false := by decide
theorem test_witness_NextU64IsTwoNextU32 : (seededAt 623 1 2).seeded = true := rfl
theorem test_witness_NextU64MayStraddleATwist :
    ((seededAt 623 1 2).seeded = true ∧ (seededAt 623 1 2).index = 623) ∧
      (seededAt 624 1 2).seeded = true ∧ (seededAt 624 1 2).index = 624 := by decide
theorem test_witness_NextF32ConvertsOneDraw : (seededAt 1 1 2).seeded = true := rfl
theorem test_witness_NextF64ConvertsItsSource : (seededAt 1 1 2).seeded = true := rfl
theorem test_witness_EveryStepKeepsTheInvariant :
    (seededAt 624 1 2).Inv ∧ (seededAt 1 1 2).Inv ∧ ∃ t, step (seededAt 624 1 2) = .next t := by
  refine ⟨⟨fun _ => by decide, nofun, nofun, .nil⟩, ⟨fun _ => by decide, nofun, nofun, .nil⟩, _, rfl⟩
theorem test_witness_UnsetWordsAreNeverRead :
    let t := { offering 0x0200000000 with mt := Vector.replicate 624 1, index := 3 }
    (offering 0x0200000000).SameToHost t ∧ ∃ u, step (offering 0x0200000000) = .next u :=
  ⟨⟨rfl, rfl, rfl, rfl, rfl, rfl, rfl, nofun⟩, _, rfl⟩
/-- A host that waits an edge, offers a `NOP`, and takes its response late. -/
def slowScript : List PortSample := [idleSample, offerSample 0x0000000000, idleSample, takeSample]

theorem test_witness_ProgramsRunAsComposition :
    (∀ p ∈ ({ State.reset with inputs := slowScript } : State).inputs.take 4, p.rst = false) ∧
      State.reset.rsp = none ∧ State.reset.offered = [] := by
  refine ⟨fun p hp => ?_, rfl, rfl⟩
  simp only [slowScript, idleSample, offerSample, takeSample, List.take_succ_cons, List.take_nil, List.mem_cons] at hp
  rcases hp with rfl | rfl | rfl | rfl | h
  · rfl
  · rfl
  · rfl
  · rfl
  · exact nomatch h
theorem test_witness_ResponsesDependOnCommandsSinceReset :
    underReset.inputs = [⟨true, true, 0, true⟩] ∧ (⟨true, true, 0, true⟩ : PortSample).rst = true ∧
      ∀ q ∈ ([] : List PortSample).take 3, q.rst = false :=
  ⟨rfl, rfl, nofun⟩
/-- The slow host has its one command accepted. -/
theorem test_slow_host_accepts_once :
    acceptedWords 4 { State.reset with inputs := slowScript } = [0x0000000000] := by decide

end Sys2Proof.Tests
end

/-! PROOFS. The family 10_state.md: the flags, the STATUS word, the invariant, and the words left unset by reset. -/

namespace Sys2Proof.Machine

/-! ### Rules: decoding, commands, edges -/

/-- The words that decode to a `SEED` are those with its opcode (R77). -/
theorem cmdOp_eq_seed_iff (w : CmdWord) : cmdOp w = 1#8 ↔ ∃ v, decode w = some (.seed v) := by
  constructor
  · intro h
    exact ⟨cmdData w, by simp [decode, h]⟩
  · rintro ⟨v, hv⟩
    unfold decode at hv
    split at hv
    case h_2 hop => exact BitVec.eq_of_toNat_eq hop
    all_goals simp at hv

/-- Any other word has another opcode. -/
theorem cmdOp_ne_seed {w : CmdWord} (h : ∀ v, decode w ≠ some (.seed v)) : cmdOp w ≠ 1#8 := fun hop => by
  obtain ⟨v, hv⟩ := (cmdOp_eq_seed_iff w).1 hop
  exact h v hv

/-- `SEED` is no draw. -/
theorem drawOf_ne_seed {i : Instr} {body : State → State} (h : drawOf i = some body) (v : Word) : i ≠ .seed v := by
  rintro rfl
  exact nomatch h

/-- A word that decodes runs its command (R84). -/
theorem runCommand_of_some {w : CmdWord} {i : Instr} (h : decode w = some i) (s : State) :
    runCommand w s = exec i s := by
  simp [runCommand, h]

/-- A word that decodes to none is a reserved opcode (R78, R84). -/
theorem runCommand_of_none {w : CmdWord} (h : decode w = none) (s : State) : runCommand w s = execIllegalOp s := by
  simp [runCommand, h]

/-- An OK response may carry any data (R75). -/
theorem legal_of_ok (d : DWord) : Response.Legal ⟨codeOk, d⟩ := ⟨show codeOk ≠ 3 by decide, fun h => absurd rfl h⟩

/-- A response with any other code carries none, and the code is not the reserved one (R75). -/
theorem legal_of_error {c : BitVec 2} (h : c ≠ 3) : Response.Legal ⟨c, 0⟩ := ⟨h, fun _ => rfl⟩

/-- Everything a command word can do: it answers one legal response, whose code says whether `sticky_err` is set; its
opcode says whether `seeded` is set; and it leaves the cursor alone, unless it puts it in [1, 624]. -/
theorem runCommand_eq (w : CmdWord) (s : State) : ∃ m ix r,
    runCommand w s = .next { s with mt := m, index := ix, seeded := s.seeded || cmdOp w == 1#8,
                                    stickyErr := s.stickyErr || r.code != 0, rsp := some r } ∧
      r.Legal ∧ (1 ≤ ix.val ∨ ix = s.index ∧ cmdOp w ≠ 1#8) := by
  cases hd : decode w with
  | none =>
    have hop : cmdOp w ≠ 1#8 := cmdOp_ne_seed (by simp [hd])
    exact ⟨s.mt, s.index, ⟨codeIllegalOp, 0⟩,
      by simp [runCommand_of_none hd, execIllegalOp, cmdError_eq, hop, codeIllegalOp],
      legal_of_error (by decide), .inr ⟨rfl, hop⟩⟩
  | some i =>
    rw [runCommand_of_some hd]
    obtain ⟨rfl, he⟩ | ⟨v, rfl, he⟩ | ⟨body, hb, hs, he⟩ | ⟨body, hb, hs, he⟩ := exec_cases i s
    · have hop : cmdOp w ≠ 1#8 := cmdOp_ne_seed (by simp [hd])
      exact ⟨s.mt, s.index, ⟨codeOk, 0⟩, by simp [he, hop, codeOk], legal_of_ok _, .inr ⟨rfl, hop⟩⟩
    · have hop := (cmdOp_eq_seed_iff w).2 ⟨v, hd⟩
      exact ⟨initState s.mt v, 624, ⟨codeOk, 0⟩, by simp [he, hop, codeOk], legal_of_ok _,
        .inl (by decide)⟩
    · have hop : cmdOp w ≠ 1#8 := cmdOp_ne_seed (by simp [hd, drawOf_ne_seed hb])
      exact ⟨s.mt, s.index, ⟨codeNotSeeded, 0⟩, by simp [he, hop, codeNotSeeded],
        legal_of_error (by decide), .inr ⟨rfl, hop⟩⟩
    · have hop : cmdOp w ≠ 1#8 := cmdOp_ne_seed (by simp [hd, drawOf_ne_seed hb])
      obtain ⟨m, ix, d, hix, hbody⟩ := drawOf_drawsOnly hb s
      exact ⟨m, ix, ⟨codeOk, d⟩, by simp [he, hbody, hop, codeOk], legal_of_ok _, .inl hix⟩

/-- The four things an edge can be: a reset, one with a response held, one that accepts a command, or an idle one. -/
theorem step_cases (s : State) :
    (s.pins.rst = true ∧ step s = .next (s.pastEdge.noteOffer s.pins).hardReset) ∨
    (∃ r, s.pins.rst = false ∧ s.rsp = some r ∧ step s = .next (if s.pins.rspReady then
      (s.pastEdge.noteOffer s.pins).deliver r else s.pastEdge.noteOffer s.pins)) ∨
    (s.pins.rst = false ∧ s.rsp = none ∧ s.pins.cmdValid = true ∧
      step s = runCommand (s.pastEdge.accept s.pins).1 (s.pastEdge.accept s.pins).2) ∨
    (s.pins.rst = false ∧ s.rsp = none ∧ s.pins.cmdValid = false ∧ step s = .next (s.pastEdge.noteOffer s.pins)) := by
  cases hrst : s.pins.rst with
  | true => exact .inl ⟨rfl, risingEdge_of_rst hrst⟩
  | false =>
    cases hr : s.rsp with
    | some r => exact .inr (.inl ⟨r, rfl, rfl, risingEdge_of_held hrst hr⟩)
    | none =>
      cases hv : s.pins.cmdValid with
      | true => exact .inr (.inr (.inl ⟨rfl, rfl, rfl, risingEdge_of_accept hrst hr hv⟩))
      | false => exact .inr (.inr (.inr ⟨rfl, rfl, rfl, risingEdge_of_idle hrst hr hv⟩))

/-- An edge without `rst` clears no flag (R34, R35). -/
theorem step_keeps_flags {s t : State} (h : step s = .next t) (hrst : s.pins.rst = false) :
    (s.seeded = true → t.seeded = true) ∧ (s.stickyErr = true → t.stickyErr = true) := by
  obtain ⟨hr, -⟩ | ⟨r, -, -, he⟩ | ⟨-, -, -, he⟩ | ⟨-, -, -, he⟩ := step_cases s
  · simp [hrst] at hr
  · cases he.symm.trans h
    split <;> exact ⟨id, id⟩
  · obtain ⟨n, hn⟩ := accept_state s.pastEdge s.pins
    obtain ⟨m, ix, r, hw, -, -⟩ := runCommand_eq (s.pastEdge.accept s.pins).1 (s.pastEdge.accept s.pins).2
    cases (he.trans hw).symm.trans h
    constructor <;> intro hf <;> simp [hn, hf]
  · cases he.symm.trans h
    exact ⟨id, id⟩

/-! ### The invariant -/

/-- A command keeps the invariant. -/
theorem runCommand_keeps_inv {w : CmdWord} {s t : State} (hi : s.Inv) (h : runCommand w s = .next t) : t.Inv := by
  obtain ⟨hcur, -, htaken, hoff⟩ := hi
  obtain ⟨m, ix, r, hw, hr, hix⟩ := runCommand_eq w s
  cases hw.symm.trans h
  refine ⟨fun hs => ?_, fun r' hr' => ?_, htaken, hoff⟩
  · obtain hix | ⟨rfl, hop⟩ := hix
    · exact hix
    · exact hcur (by simpa [hop] using hs)
  · cases hr'
    exact hr

/-- Noting what the host offers keeps the invariant: a word joins its offer once. -/
theorem noteOffer_keeps_inv {s : State} (hi : s.Inv) (p : PortSample) : (s.noteOffer p).Inv := by
  obtain ⟨hcur, hrsp, htaken, hoff⟩ := hi
  refine ⟨hcur, hrsp, htaken, ?_⟩
  rw [State.noteOffer_offered]
  split
  · exact addOffer_nodup hoff
  · exact .nil

/-- Delivering a legal response keeps the invariant. -/
theorem deliver_keeps_inv {s : State} (hi : s.Inv) {r : Response} (hr : r.Legal) : (s.deliver r).Inv := by
  obtain ⟨hcur, -, htaken, hoff⟩ := hi
  refine ⟨hcur, nofun, fun r' hr' => ?_, hoff⟩
  obtain hr' | rfl : r' ∈ s.taken ∨ r' = r := by simpa using hr'
  · exact htaken r' hr'
  · exact hr

/-- A reset keeps the invariant, which rests on no value of `mt` or `index` there. -/
theorem hardReset_keeps_inv {s : State} (hi : s.Inv) : s.hardReset.Inv := by
  obtain ⟨-, -, htaken, hoff⟩ := hi
  exact ⟨nofun, nofun, htaken, hoff⟩

/-- Accepting a word keeps the invariant: the offer ends. -/
theorem accept_keeps_inv {s : State} (hi : s.Inv) (p : PortSample) : (s.accept p).2.Inv := by
  obtain ⟨hcur, hrsp, htaken, -⟩ := hi
  obtain ⟨n, hn⟩ := accept_state s p
  rw [hn]
  exact ⟨hcur, hrsp, htaken, .nil⟩

/-- Settles O47, by the cases of an edge and one lemma for each operation. -/
theorem everyStepKeepsTheInvariant : Obligations.EveryStepKeepsTheInvariant := by
  intro s t hi h
  have hpast : s.pastEdge.Inv := hi
  have hnote := noteOffer_keeps_inv hpast s.pins
  obtain ⟨-, he⟩ | ⟨r, -, hr, he⟩ | ⟨-, -, -, he⟩ | ⟨-, -, -, he⟩ := step_cases s
  · cases he.symm.trans h
    exact hardReset_keeps_inv hnote
  · obtain ⟨-, hrsp, -, -⟩ := hi
    cases he.symm.trans h
    split
    · exact deliver_keeps_inv hnote (hrsp r hr)
    · exact hnote
  · exact runCommand_keeps_inv (accept_keeps_inv hpast s.pins) (he.symm.trans h)
  · cases he.symm.trans h
    exact hnote

/-- Settles O46: nothing is held, taken or offered, and the state is not seeded. -/
theorem invariantHoldsAtReset : Obligations.InvariantHoldsAtReset :=
  ⟨nofun, nofun, nofun, .nil⟩

/-! ### Words that reset leaves unset -/

/-- `InitState` writes the seed to word 0, and every later word from the one before it (R101). -/
theorem mtWord_initState (mt : Vector Word 624) (v : Word) :
    mtWord (initState mt v) 0 = v ∧
      ∀ i < 623, mtWord (initState mt v) (i + 1) = initNext (i + 1) (mtWord (initState mt v) i) := by
  rw [initState_eq]
  refine forUpTo_induction initStep (mtWrite mt 0 v)
    (fun k y => mtWord y 0 = v ∧ ∀ i < k, mtWord y (i + 1) = initNext (i + 1) (mtWord y i)) 623
    ⟨mtWord_mtWrite_same mt v rfl, nofun⟩ fun k y hk hy => ?_
  obtain ⟨hzero, hsucc⟩ := hy
  have keeps : ∀ j ≤ k, mtWord (initStep y k) j = mtWord y j := fun j hj => initStep_other y (by omega)
  refine ⟨(keeps 0 (by omega)).trans hzero, fun i hi => ?_⟩
  rw [keeps i (by omega)]
  obtain hlt | rfl : i < k ∨ i = k := by omega
  · rw [keeps (i + 1) hlt, hsucc i hlt]
  · exact initStep_same y i

/-- `InitState` reads nothing of the vector it overwrites (R101). -/
theorem initState_congr (a b : Vector Word 624) (v : Word) : initState a v = initState b v := by
  obtain ⟨ha0, ha⟩ := mtWord_initState a v
  obtain ⟨hb0, hb⟩ := mtWord_initState b v
  refine mt_ext fun i => ?_
  induction i with
  | zero => exact fun _ => ha0.trans hb0.symm
  | succ i ih =>
    intro hi
    rw [ha i (by omega), hb i (by omega), ih (by omega)]

/-- Two states a host cannot tell apart are the same state, or an unseeded one with another `mt` and `index`. -/
theorem sameToHost_iff {s t : State} :
    s.SameToHost t ↔ t = s ∨ s.seeded = false ∧ ∃ m ix, t = { s with mt := m, index := ix } := by
  constructor
  · intro h
    obtain ⟨mt, index, seeded, stickyErr, rsp, inputs, offered, taken, freeCount⟩ := s
    obtain ⟨rfl, rfl, rfl, rfl, rfl, rfl, rfl, hset⟩ := h
    cases hs : t.seeded with
    | true =>
      obtain ⟨rfl, rfl⟩ := hset hs
      exact .inl (by rw [← hs])
    | false => exact .inr ⟨rfl, t.mt, t.index, by rw [← hs]⟩
  · rintro (rfl | ⟨hs, m, ix, rfl⟩)
    · exact ⟨rfl, rfl, rfl, rfl, rfl, rfl, rfl, fun _ => ⟨rfl, rfl⟩⟩
    · exact ⟨rfl, rfl, rfl, rfl, rfl, rfl, rfl, fun h => by simp [hs] at h⟩

/-- Run unseeded, a command does the same whatever `mt` and `index` hold: `SEED` overwrites both, and no other reads
either (R100, R173). -/
theorem runCommand_sameToHost_of_unseeded (w : CmdWord) {s s' : State} (hs : s.seeded = false)
    (h : runCommand w s = .next s') (m : Vector Word 624) (ix : Fin 625) :
    ∃ t', runCommand w { s with mt := m, index := ix } = .next t' ∧ s'.SameToHost t' := by
  cases hd : decode w with
  | none =>
    rw [runCommand_of_none hd] at h ⊢
    cases (cmdError_eq codeIllegalOp s).symm.trans h
    exact ⟨_, cmdError_eq _ _, sameToHost_iff.2 (.inr ⟨hs, m, ix, rfl⟩)⟩
  | some i =>
    rw [runCommand_of_some hd] at h ⊢
    obtain ⟨rfl, he⟩ | ⟨v, rfl, he⟩ | ⟨body, hb, -, he⟩ | ⟨body, hb, hseeded, -⟩ := exec_cases i s
    · cases he.symm.trans h
      exact ⟨_, exec_nop _, sameToHost_iff.2 (.inr ⟨hs, m, ix, rfl⟩)⟩
    · cases he.symm.trans h
      exact ⟨_, exec_seed v _, sameToHost_iff.2 (.inl (by rw [initState_congr m s.mt v]))⟩
    · cases he.symm.trans h
      exact ⟨_, (exec_of_drawOf hb _).trans (whenSeeded_of_unseeded (s := { s with mt := m, index := ix }) hs body),
        sameToHost_iff.2 (.inr ⟨hs, m, ix, rfl⟩)⟩
    · simp [hs] at hseeded

/-- Which word an edge accepts does not depend on `mt` or `index`, and accepting leaves both alone. -/
theorem accept_with_mt_index (s : State) (m : Vector Word 624) (ix : Fin 625) :
    ({ s with mt := m, index := ix } : State).pastEdge.accept ({ s with mt := m, index := ix } : State).pins =
      ((s.pastEdge.accept s.pins).1, { (s.pastEdge.accept s.pins).2 with mt := m, index := ix }) := by
  change State.accept { s.pastEdge with mt := m, index := ix } s.pins = _
  unfold State.accept
  dsimp only
  split <;> rfl

/-- Settles O48: only the accepting edge could read `mt` or `index`, and a command run unseeded does not. -/
theorem unsetWordsAreNeverRead : Obligations.UnsetWordsAreNeverRead := by
  intro s t s' hst h
  obtain rfl | ⟨hs, m, ix, rfl⟩ := sameToHost_iff.1 hst
  · exact ⟨s', h, sameToHost_iff.2 (.inl rfl)⟩
  obtain ⟨hrst, he⟩ | ⟨r, hrst, hr, he⟩ | ⟨hrst, hr, hv, he⟩ | ⟨hrst, hr, hv, he⟩ := step_cases s
  · cases he.symm.trans h
    exact ⟨_, risingEdge_of_rst hrst, sameToHost_iff.2 (.inl rfl)⟩
  · cases he.symm.trans h
    refine ⟨_, risingEdge_of_held hrst hr, ?_⟩
    change (if s.pins.rspReady then _ else _ : State).SameToHost (if s.pins.rspReady then _ else _)
    split <;> exact sameToHost_iff.2 (.inr ⟨hs, m, ix, rfl⟩)
  · obtain ⟨n, hn⟩ := accept_state s.pastEdge s.pins
    have hacc : (s.pastEdge.accept s.pins).2.seeded = false := by rw [hn]; exact hs
    obtain ⟨t', ht', hsame⟩ := runCommand_sameToHost_of_unseeded _ hacc (he.symm.trans h) m ix
    refine ⟨t', (risingEdge_of_accept (s := { s with mt := m, index := ix }) hrst hr hv).trans ?_, hsame⟩
    rw [accept_with_mt_index]
    exact ht'
  · cases he.symm.trans h
    exact ⟨_, risingEdge_of_idle hrst hr hv, sameToHost_iff.2 (.inr ⟨hs, m, ix, rfl⟩)⟩

/-! ### The flags and STATUS -/

/-- Settles O16: a command sets `seeded` as `runCommand_eq` says, an edge without `rst` clears no flag, and the guard
of the draws refuses before anything is drawn. -/
theorem seededMeansSeedSinceReset : Obligations.SeededMeansSeedSinceReset := by
  refine ⟨fun w s t h => ?_, fun s hrst => ⟨_, risingEdge_of_rst hrst, rfl⟩, fun s t h hs ht => ?_,
    fun i s t hi hs h => ?_⟩
  · obtain ⟨m, ix, r, hw, -, -⟩ := runCommand_eq w s
    cases hw.symm.trans h
    simp
  · by_contra hrst
    have := (step_keeps_flags h (by simpa using hrst)).1 hs
    simp [ht] at this
  · obtain ⟨body, hb⟩ : ∃ body, drawOf i = some body := by
      obtain rfl | rfl | rfl | rfl := hi <;> exact ⟨_, rfl⟩
    cases ((exec_of_drawOf hb s).trans (whenSeeded_of_unseeded hs body)).symm.trans h
    exact ⟨rfl, rfl, rfl⟩

/-- Settles O17: a command sets `sticky_err` as `runCommand_eq` says, and an edge without `rst` clears no flag. -/
theorem stickyErrRecordsErrors : Obligations.StickyErrRecordsErrors := by
  refine ⟨fun w s t h => ?_, fun s hrst => ⟨_, risingEdge_of_rst hrst, rfl⟩, fun s t h hs ht => ?_⟩
  · obtain ⟨m, ix, r, hw, -, -⟩ := runCommand_eq w s
    cases hw.symm.trans h
    exact ⟨r, rfl, by simp⟩
  · by_contra hrst
    have := (step_keeps_flags h (by simpa using hrst)).2 hs
    simp [ht] at this

@[simp] theorem statusPort_getElem_zero (s : State) : s.statusPort[0] = s.seeded := by
  cases h : s.seeded <;> cases h' : s.stickyErr <;> simp [State.statusPort, h, h']

@[simp] theorem statusPort_getElem_one (s : State) : s.statusPort[1] = s.stickyErr := by
  cases h : s.seeded <;> cases h' : s.stickyErr <;> simp [State.statusPort, h, h']

/-- Settles O18, from the two bits of the port and the flags a command leaves by `runCommand_eq`. -/
theorem statusShowsTheFlags : Obligations.StatusShowsTheFlags := by
  refine ⟨fun s => ⟨by simp [State.statusWord], by simp [State.statusWord], fun k hk => ?_, ?_⟩, by decide,
    fun w s => ?_⟩
  · rw [State.statusWord, BitVec.getLsbD_setWidth, BitVec.getLsbD_of_ge _ _ hk, Bool.and_false]
  · rw [State.statusWord, BitVec.setWidth_setWidth_of_le _ (by decide), BitVec.setWidth_eq]
  · obtain ⟨m, ix, r, hw, -, -⟩ := runCommand_eq w s
    exact ⟨_, r, hw, rfl, by simp, by simp⟩

end Sys2Proof.Machine

/-! PROOFS. The family 20_memory.md: a run without reset is the composition of the commands it accepts. -/

namespace Sys2Proof.Machine

/-! ### A command reads the architectural state alone -/

/-- The ports and the host's side of `p`, with the architectural state (R30) of `s`. -/
def State.withArch (p s : State) : State :=
  { p with mt := s.mt, index := s.index, seeded := s.seeded, stickyErr := s.stickyErr }

theorem withArch_self (s : State) : s.withArch s = s := rfl

theorem draw32_withArch (p s : State) : draw32 (p.withArch s) = ((draw32 s).1, p.withArch (draw32 s).2) := by
  obtain h | h := index_lt_or_exhausted s
  · rw [draw32_of_lt s h, draw32_of_lt (p.withArch s) h]
    rfl
  · rw [draw32_of_exhausted s h, draw32_of_exhausted (p.withArch s) h]
    rfl

/-- The drawing part of a command gives the same words and response whatever the ports hold. -/
theorem drawOf_withArch {i : Instr} {body : State → State} (hb : drawOf i = some body) (p s : State) :
    body (p.withArch s) = { p with rsp := (body s).rsp }.withArch (body s) := by
  cases i with
  | nop | seed => exact nomatch hb
  | nextU32 | nextU64 | nextF32 | nextF64 =>
    cases hb
    simp only [drawU32, drawU64, drawF32, drawF64, draw32_withArch]
    rfl

/-- A command word's effect on the architectural state and its response depend on the architectural state alone, and
its response is all it changes at the ports (R56). -/
theorem runCommand_withArch {w : CmdWord} {s t : State} (h : runCommand w s = .next t) (p : State) :
    runCommand w (p.withArch s) = .next ({ p with rsp := t.rsp }.withArch t) := by
  cases hd : decode w with
  | none =>
    rw [runCommand_of_none hd] at h ⊢
    cases (cmdError_eq codeIllegalOp s).symm.trans h
    exact cmdError_eq _ _
  | some i =>
    rw [runCommand_of_some hd] at h ⊢
    obtain ⟨rfl, he⟩ | ⟨v, rfl, he⟩ | ⟨body, hb, hs, he⟩ | ⟨body, hb, hs, he⟩ := exec_cases i s
    · cases he.symm.trans h
      exact exec_nop _
    · cases he.symm.trans h
      exact exec_seed v _
    · cases he.symm.trans h
      exact (exec_of_drawOf hb _).trans (whenSeeded_of_unseeded (s := p.withArch s) hs body)
    · cases he.symm.trans h
      rw [exec_of_drawOf hb, whenSeeded_of_seeded (s := p.withArch s) hs, drawOf_withArch hb]

/-- The architectural state and the response a command word leaves, whatever the ports hold. -/
theorem runCommand_answers (w : CmdWord) (s : State) :
    ∃ (a : State) (r : Response), ∀ p : State,
      runCommand w (p.withArch s) = .next ({ p with rsp := some r }.withArch a) ∧
        serve (p.withArch s) w = { p with rsp := none, taken := p.taken ++ [r] }.withArch a := by
  obtain ⟨m, ix, r, hrun, -, -⟩ := runCommand_eq w s
  refine ⟨{ s with mt := m, index := ix, seeded := s.seeded || cmdOp w == 1#8,
                   stickyErr := s.stickyErr || r.code != 0 }, r, fun p => ?_⟩
  have hp := runCommand_withArch hrun p
  refine ⟨hp, ?_⟩
  rw [serve, hp]
  rfl

/-! ### Serving commands in order -/

/-- Serving a word leaves nothing outstanding, records one response, and leaves the rest of the host's side alone. -/
theorem serve_frame (s : State) (w : CmdWord) :
    ∃ r, serve s w = { s with rsp := none, taken := s.taken ++ [r] }.withArch (serve s w) := by
  obtain ⟨a, r, h⟩ := runCommand_answers w s
  refine ⟨r, ?_⟩
  rw [← withArch_self s, (h s).2]
  rfl

theorem serve_rsp (s : State) (w : CmdWord) : (serve s w).rsp = none := by
  obtain ⟨r, h⟩ := serve_frame s w
  rw [h]
  rfl

theorem serve_inputs (s : State) (w : CmdWord) : (serve s w).inputs = s.inputs := by
  obtain ⟨r, h⟩ := serve_frame s w
  rw [h]
  rfl

theorem serve_offered (s : State) (w : CmdWord) : (serve s w).offered = s.offered := by
  obtain ⟨r, h⟩ := serve_frame s w
  rw [h]
  rfl

theorem serve_taken_length (s : State) (w : CmdWord) : (serve s w).taken.length = s.taken.length + 1 := by
  obtain ⟨r, h⟩ := serve_frame s w
  rw [h]
  exact List.length_append

theorem serveAll_cons (s : State) (w : CmdWord) (ws : List CmdWord) :
    serveAll s (w :: ws) = serveAll (serve s w) ws := rfl

theorem serveAll_append (s : State) (vs ws : List CmdWord) :
    serveAll s (vs ++ ws) = serveAll (serveAll s vs) ws := List.foldl_append

/-- One response per command (R76). -/
theorem serveAll_taken_length (ws : List CmdWord) (s : State) :
    (serveAll s ws).taken.length = s.taken.length + ws.length := by
  induction ws generalizing s with
  | nil => rfl
  | cons w ws ih =>
    rw [serveAll_cons, ih, serve_taken_length, List.length_cons]
    omega

theorem serveAll_rsp {s : State} (h : s.rsp = none) (ws : List CmdWord) : (serveAll s ws).rsp = none := by
  induction ws generalizing s with
  | nil => exact h
  | cons w ws ih => exact ih (serve_rsp s w)

/-! ### The view of a run: its architectural state and its responses -/

/-- The architectural state and the responses given so far, a held one counted as taken. The host's side is blank. -/
def State.view (s : State) : State := { State.reset with taken := s.taken ++ s.rsp.toList }.withArch s

@[simp] theorem view_pastEdge (s : State) : s.pastEdge.view = s.view := rfl

@[simp] theorem view_noteOffer (s : State) (p : PortSample) : (s.noteOffer p).view = s.view := rfl

@[simp] theorem view_accept (s : State) (p : PortSample) : (s.accept p).2.view = s.view := by
  obtain ⟨n, hn⟩ := accept_state s p
  rw [hn]
  rfl

/-- Leaving an edge behind does not change which word is accepted. -/
theorem accept_pastEdge_word (s : State) (p : PortSample) : (s.pastEdge.accept p).1 = (s.accept p).1 := by
  unfold State.accept
  rw [State.pastEdge_offered]
  split <;> rfl

/-- Taking the held response moves it within the view's record, where it already was. -/
theorem view_deliver {s : State} {r : Response} (h : s.rsp = some r) : (s.deliver r).view = s.view := by
  simp [State.view, State.withArch, h]

/-- Running a command with none outstanding serves its word, as the view shows it. -/
theorem view_runCommand {w : CmdWord} {s t : State} (hr : s.rsp = none) (h : runCommand w s = .next t) :
    t.view = serve s.view w := by
  obtain ⟨a, r, hrun⟩ := runCommand_answers w s
  cases (hrun s).1.symm.trans h
  rw [State.view, State.view, (hrun _).2, hr, Option.toList_none, List.append_nil]
  rfl

theorem view_serve {s : State} (hr : s.rsp = none) (w : CmdWord) : (serve s w).view = serve s.view w := by
  obtain ⟨a, r, hrun⟩ := runCommand_answers w s
  obtain ⟨hnext, hserve⟩ := hrun s
  rw [withArch_self] at hnext hserve
  have hdeliver : serve s w = ({ s with rsp := some r }.withArch a).deliver r := hserve
  rw [hdeliver, view_deliver rfl, view_runCommand hr hnext]

theorem view_serveAll {s : State} (hr : s.rsp = none) (ws : List CmdWord) :
    (serveAll s ws).view = serveAll s.view ws := by
  induction ws generalizing s with
  | nil => rfl
  | cons w ws ih => rw [serveAll_cons, serveAll_cons, ih (serve_rsp s w), view_serve hr]

/-! ### Runs without reset -/

/-- An edge leaves one sample of the host's script behind. -/
theorem step_inputs {s t : State} (h : step s = .next t) : t.inputs = s.inputs.tail := by
  obtain ⟨-, he⟩ | ⟨r, -, -, he⟩ | ⟨-, -, -, he⟩ | ⟨-, -, -, he⟩ := step_cases s
  · cases he.symm.trans h
    rfl
  · cases he.symm.trans h
    split <;> rfl
  · obtain ⟨n, hn⟩ := accept_state s.pastEdge s.pins
    obtain ⟨m, ix, r, hw, -, -⟩ := runCommand_eq (s.pastEdge.accept s.pins).1 (s.pastEdge.accept s.pins).2
    cases (he.trans hw).symm.trans h
    simp [hn]
  · cases he.symm.trans h
    rfl

/-- An edge without `rst` serves the word it accepts, if it accepts one, and otherwise leaves the view as it is. -/
theorem step_view {s : State} (hrst : s.pins.rst = false) :
    ∃ t, step s = .next t ∧ t.view = serveAll s.view s.acceptedWord.toList := by
  obtain ⟨hr, -⟩ | ⟨r, -, hr, he⟩ | ⟨-, hr, hv, he⟩ | ⟨-, -, hv, he⟩ := step_cases s
  · simp [hrst] at hr
  · refine ⟨_, he, ?_⟩
    rw [acceptedWord_of_none (.inl (by simp [State.cmdReady, hr]))]
    split
    · exact view_deliver hr
    · rfl
  · obtain ⟨n, hn⟩ := accept_state s.pastEdge s.pins
    obtain ⟨m, ix, r, hw, -, -⟩ := runCommand_eq (s.pastEdge.accept s.pins).1 (s.pastEdge.accept s.pins).2
    refine ⟨_, he.trans hw, ?_⟩
    rw [acceptedWord_of_accept (by simp [State.cmdReady, hrst, hr]) hv, view_runCommand (by simp [hn, hr]) hw,
      view_accept, view_pastEdge, accept_pastEdge_word]
    rfl
  · exact ⟨_, he, by rw [acceptedWord_of_none (.inr hv)]; rfl⟩

/-- A script without reset: its coming edge is without `rst`, and so are the edges after it. -/
theorem no_reset_succ {s : State} {k : Nat} (h : ∀ p ∈ s.inputs.take (k + 1), p.rst = false) :
    s.pins.rst = false ∧ ∀ p ∈ s.inputs.tail.take k, p.rst = false := by
  unfold State.pins
  cases hi : s.inputs with
  | nil => exact ⟨rfl, by simp⟩
  | cons p ps =>
    rw [hi, List.take_succ_cons] at h
    exact List.forall_mem_cons.1 h

/-- A run without reset serves the words it accepts, in order. -/
theorem runSteps_view (k : Nat) (s : State) (h : ∀ p ∈ s.inputs.take k, p.rst = false) :
    ∃ t, runSteps k s = .next t ∧ t.view = serveAll s.view (acceptedWords k s) := by
  induction k generalizing s with
  | zero => exact ⟨s, rfl, rfl⟩
  | succ k ih =>
    obtain ⟨hrst, htail⟩ := no_reset_succ h
    obtain ⟨s', hstep, hview⟩ := step_view hrst
    obtain ⟨t, hrun, ht⟩ := ih s' (by rwa [step_inputs hstep])
    refine ⟨t, (runSteps_succ hstep k).trans hrun, ?_⟩
    rw [acceptedWords_succ hstep, serveAll_append, ← hview, ht]

/-! ### A program offered word by word -/

/-- The edge at which a host offers a word, with nothing outstanding and no earlier offer, runs that word. -/
theorem step_offerSample {s : State} (hr : s.rsp = none) (ho : s.offered = []) {w : CmdWord}
    {rest : List PortSample} (hi : s.inputs = offerSample w :: rest) :
    s.acceptedWord = some w ∧ step s = runCommand w { s with inputs := rest } := by
  have hp : s.pins = offerSample w := by rw [State.pins, hi]; rfl
  have hrst : s.pins.rst = false := by rw [hp]; rfl
  have hv : s.pins.cmdValid = true := by rw [hp]; rfl
  constructor
  · rw [acceptedWord_of_accept (by simp [State.cmdReady, hrst, hr]) hv, accept_steady (.inl ho), hp]
    rfl
  · refine (risingEdge_of_accept hrst hr hv).trans ?_
    rw [accept_steady (s := s.pastEdge) (.inl ho), hp]
    simp [State.pastEdge, hi, ho, offerSample]

/-- The edge at which a host takes a held response and offers nothing. -/
theorem step_takeSample {s : State} {r : Response} (hr : s.rsp = some r) {rest : List PortSample}
    (hi : s.inputs = takeSample :: rest) :
    s.acceptedWord = none ∧ step s = .next ({ s with inputs := rest, offered := [] }.deliver r) := by
  have hp : s.pins = takeSample := by rw [State.pins, hi]; rfl
  constructor
  · exact acceptedWord_of_none (.inl (by simp [State.cmdReady, hr]))
  · refine (risingEdge_of_held (by rw [hp]; rfl) hr).trans ?_
    simp [hp, takeSample, State.noteOffer, State.pastEdge, hi]

/-- The two edges of one word of a program: it is accepted and served, and the rest of the script remains. -/
theorem offer_and_take {s : State} (hr : s.rsp = none) (ho : s.offered = []) (w : CmdWord)
    (rest : List PortSample) (k : Nat) :
    acceptedWords (k + 2) { s with inputs := offerSample w :: takeSample :: rest } =
        w :: acceptedWords k { serve { s with inputs := [] } w with inputs := rest } ∧
      runSteps (k + 2) { s with inputs := offerSample w :: takeSample :: rest } =
        runSteps k { serve { s with inputs := [] } w with inputs := rest } := by
  obtain ⟨a, r, hrun⟩ := runCommand_answers w s
  obtain ⟨hoffer, hstep⟩ :=
    step_offerSample (s := { s with inputs := offerSample w :: takeSample :: rest }) hr ho rfl
  set t : State := { s with inputs := takeSample :: rest, rsp := some r }.withArch a
  replace hstep : step { s with inputs := offerSample w :: takeSample :: rest } = .next t :=
    hstep.trans (hrun { s with inputs := takeSample :: rest }).1
  obtain ⟨htake, hstep'⟩ := step_takeSample (s := t) rfl rfl
  have hserve : ({ t with inputs := rest, offered := [] } : State).deliver r =
      { serve { s with inputs := [] } w with inputs := rest } := by
    rw [show serve { s with inputs := [] } w = _ from (hrun { s with inputs := [] }).2]
    simp [t, State.deliver, State.withArch, ho]
  rw [hserve] at hstep'
  constructor
  · rw [acceptedWords_succ hstep, acceptedWords_succ hstep', hoffer, htake]
    rfl
  · rw [runSteps_succ hstep, runSteps_succ hstep']

/-- Writing the script a state already has changes nothing. -/
theorem with_inputs_self {s : State} {ps : List PortSample} (h : s.inputs = ps) : { s with inputs := ps } = s := by
  subst h
  rfl

/-- A host that drives a program has exactly its words accepted, and they are served in order (R58). -/
theorem driveProgram_runs (ws : List CmdWord) (s : State) (hr : s.rsp = none) (ho : s.offered = []) :
    acceptedWords (2 * ws.length) { s with inputs := driveProgram ws } = ws ∧
      runSteps (2 * ws.length) { s with inputs := driveProgram ws } =
        .next (serveAll { s with inputs := [] } ws) := by
  induction ws generalizing s with
  | nil => exact ⟨rfl, rfl⟩
  | cons w ws ih =>
    obtain ⟨haccepted, hrun⟩ := offer_and_take hr ho w (driveProgram ws) (2 * ws.length)
    obtain ⟨ihaccepted, ihrun⟩ := ih (serve { s with inputs := [] } w) (serve_rsp _ w) ((serve_offered _ w).trans ho)
    rw [with_inputs_self (serve_inputs { s with inputs := [] } w)] at ihrun
    exact ⟨haccepted.trans (congrArg _ ihaccepted), hrun.trans ihrun⟩

/-- Settles O50: a run's view is the view of serving the words it accepts, and a driven program is served word by
word. -/
theorem programsRunAsComposition : Obligations.ProgramsRunAsComposition := by
  refine ⟨fun k s hrst => ?_, fun ws s hr ho => ?_⟩
  · obtain ⟨t, hrun, hview⟩ := runSteps_view k s hrst
    refine ⟨t, hrun, ?_⟩
    set s₀ : State := { s with taken := s.taken ++ s.rsp.toList, rsp := none }
    have hs₀ : s.view = s₀.view := by simp [State.view, State.withArch, s₀]
    have htu : t.view = (serveAll s₀ (acceptedWords k s)).view := by rw [hview, hs₀, view_serveAll rfl]
    have htaken := congrArg State.taken htu
    refine ⟨congrArg (·.mt) htu, congrArg (·.index) htu, congrArg (·.seeded) htu, congrArg (·.stickyErr) htu, ?_, ?_⟩
    · simpa [State.view, State.withArch, serveAll_rsp (s := s₀) rfl] using htaken
    · rw [serveAll_taken_length, List.length_append]
  · obtain ⟨haccepted, hrun⟩ := driveProgram_runs ws s hr ho
    exact ⟨haccepted, hrun, serveAll_taken_length ws _⟩

end Sys2Proof.Machine

/-! PROOFS. The family 30_encoding.md: the decoder and the encoder, the assembler, and the two ports. -/

namespace Sys2Proof.Machine

/-! ### The decoder and the encoder -/

@[simp] theorem cmdOp_encode (i : Instr) : cmdOp (encode i) = opcode i := cmdOp_commandWord _ _

@[simp] theorem cmdData_encode (i : Instr) : cmdData (encode i) = dataField i := cmdData_commandWord _ _

/-- The words that decode to a command: `OP` is its opcode, and `DATA` is the seed if it has one (R74, R77). -/
theorem decode_eq_some_iff {w : CmdWord} {i : Instr} :
    decode w = some i ↔ cmdOp w = opcode i ∧ ∀ v, i = .seed v → cmdData w = v := by
  constructor
  · intro h
    unfold decode at h
    split at h
    case h_2 hop =>
      cases h
      exact ⟨BitVec.eq_of_toNat_eq hop, fun _ hi => Instr.seed.inj hi⟩
    case h_7 => exact nomatch h
    all_goals
      next hop =>
        cases h
        exact ⟨BitVec.eq_of_toNat_eq hop, nofun⟩
  · rintro ⟨hop, hdata⟩
    cases i with
    | seed v => simp [decode, hop, opcode, hdata v rfl]
    | nop | nextU32 | nextU64 | nextF32 | nextF64 => simp [decode, hop, opcode]

@[simp] theorem decode_encode (i : Instr) : decode (encode i) = some i :=
  decode_eq_some_iff.2 ⟨cmdOp_encode i, by rintro v rfl; exact cmdData_encode _⟩

/-- Settles O2: `decode_eq_some_iff` says what each word means, and an encoded command's fields are its own. -/
theorem decodeInvertsEncode : Obligations.DecodeInvertsEncode :=
  ⟨decode_encode, fun _ _ => decode_eq_some_iff⟩

/-- Settles O1, by running the decoder on the ten words. -/
theorem writtenWordsDecodeAsWritten : Obligations.WrittenWordsDecodeAsWritten := by
  unfold Obligations.WrittenWordsDecodeAsWritten
  decide

theorem cmdOp_toNat_eq_shiftRight (w : CmdWord) : (cmdOp w).toNat = (w >>> 32).toNat := by
  rw [cmdOp_toNat, BitVec.toNat_ushiftRight, Nat.shiftRight_eq_div_pow]

/-- The reserved opcodes are those from 6 on (R78). -/
theorem decode_eq_none_iff {w : CmdWord} : decode w = none ↔ 6 ≤ (cmdOp w).toNat := by
  unfold decode
  generalize (cmdOp w).toNat = op
  match op with
  | 0 | 1 | 2 | 3 | 4 | 5 => simp
  | k + 6 => simp

/-- A number below 256 is the `OP` of its word with `DATA` 0 (R73). -/
theorem cmdOp_ofNat {op : Nat} (h : op < 256) : (cmdOp (BitVec.ofNat 40 (op * 2 ^ 32))).toNat = op := by
  rw [cmdOp_toNat, BitVec.toNat_ofNat]
  omega

/-- Settles O3, by `decode_eq_none_iff`, which makes the count that of the numbers from 6 to 255. -/
theorem reservedOpcodesAreSixToFF : Obligations.ReservedOpcodesAreSixToFF := by
  refine ⟨fun w => by rw [decode_eq_none_iff, cmdOp_toNat_eq_shiftRight], ?_⟩
  have hcount : ∀ op ∈ List.range 256,
      decide (decode (BitVec.ofNat 40 (op * 2 ^ 32)) = none) = decide (6 ≤ op) := fun op hop => by
    rw [decide_eq_decide, decode_eq_none_iff, cmdOp_ofNat (List.mem_range.1 hop)]
  rw [List.filter_congr hcount, List.range_add (n := 6) (m := 250), List.filter_append,
    List.filter_eq_nil_iff.2 (by simp), List.filter_eq_self.2 (by simp), List.nil_append, List.length_map,
    List.length_range]

/-- A word whose opcode is not `SEED`'s means what its opcode means (R74). -/
theorem decode_congr {w x : CmdWord} (hop : cmdOp w = cmdOp x) (hne : cmdOp w ≠ 1#8) : decode w = decode x := by
  refine Option.ext fun i => ?_
  rw [decode_eq_some_iff, decode_eq_some_iff, ← hop]
  refine and_congr_right fun hi => ?_
  have hseed : ∀ v, i ≠ .seed v := by
    rintro v rfl
    exact hne hi
  simp [hseed]

/-! ### The assembler -/

/-- A statement that is not well formed is refused (R82). -/
theorem assemble_of_not_wf {a : AsmStmt} (h : ¬ a.wf) : assemble a = none := if_neg h

/-- A well formed statement of a mnemonic gives its command's word (R81). -/
theorem assemble_op {m : Mnemonic} {operand : Option Int} (h : (AsmStmt.op m operand).wf) :
    assemble (.op m operand) = some (encode (m.instr (BitVec.ofInt 32 (operand.getD 0)))) := if_pos h

/-- A well formed `.cmd` gives the word as written (R81). -/
theorem assemble_rawCmd {v : Int} (h : (AsmStmt.rawCmd v).wf) :
    assemble (.rawCmd v) = some (BitVec.ofInt 40 v) := if_pos h

theorem wf_seed_iff {v : Int} : (AsmStmt.op .seed (some v)).wf ↔ 0 ≤ v ∧ v ≤ 2 ^ 32 - 1 := by
  rw [AsmStmt.wf, decide_eq_true_iff]
  omega

theorem wf_rawCmd_iff {v : Int} : (AsmStmt.rawCmd v).wf ↔ 0 ≤ v ∧ v ≤ 2 ^ 40 - 1 := by
  rw [AsmStmt.wf, decide_eq_true_iff]
  omega

/-- Every other mnemonic is well formed exactly without an operand (R82). -/
theorem wf_op_iff_of_ne_seed {m : Mnemonic} (h : m ≠ .seed) {operand : Option Int} :
    (AsmStmt.op m operand).wf ↔ operand = none := by
  cases m with
  | seed => exact absurd rfl h
  | nop | nextU32 | nextU64 | nextF32 | nextF64 => cases operand <;> simp [AsmStmt.wf]

/-- Only the seed of `SEED` is written to `DATA` (R74, R81). -/
theorem dataField_of_ne_seed {m : Mnemonic} (h : m ≠ .seed) (v : Word) : dataField (m.instr v) = 0 := by
  cases m with
  | seed => exact absurd rfl h
  | nop | nextU32 | nextU64 | nextF32 | nextF64 => rfl

/-- The word of `SEED v`, as a number: 1 in `OP` and the seed in `DATA`. -/
theorem encode_seed_ofInt {v : Int} (h : 0 ≤ v ∧ v ≤ 2 ^ 32 - 1) :
    encode (.seed (BitVec.ofInt 32 v)) = BitVec.ofNat 40 (2 ^ 32 + v.toNat) := by
  have hop : (opcode (.seed (BitVec.ofInt 32 v))).toNat = 1 := rfl
  refine BitVec.eq_of_toNat_eq ?_
  rw [encode, commandWord_toNat, hop, dataField, BitVec.toNat_ofInt, BitVec.toNat_ofNat]
  omega

/-- A literal that is not negative is written as it stands (R82). -/
theorem ofInt_eq_ofNat_toNat {n : Nat} {v : Int} (h : 0 ≤ v) : BitVec.ofInt n v = BitVec.ofNat n v.toNat := by
  rw [← BitVec.ofInt_natCast, Int.toNat_of_nonneg h]

/-- Settles O4: the fields of a word made of `OP` and `DATA` are these, and the decoder reads `DATA` for `SEED`
alone. -/
theorem dataMattersToSeedAlone : Obligations.DataMattersToSeedAlone := by
  refine ⟨fun v => decode_encode (.seed v), fun op d e s hop => ?_, fun m hm => ?_⟩
  · have hd : decode (commandWord op d) = decode (commandWord op e) := decode_congr (by simp) (by simpa using hop)
    rw [runCommand, runCommand, hd]
  · exact ⟨_, assemble_op ((wf_op_iff_of_ne_seed hm).2 rfl), by rw [cmdData_encode, dataField_of_ne_seed hm]⟩

/-- Settles O5, by the well formed statements of each kind and the words they give. -/
theorem assemblerNeverTruncates : Obligations.AssemblerNeverTruncates := by
  refine ⟨fun v => ?_, rfl, fun m hm v => ?_, fun v => ?_⟩
  · split
    · next hv => rw [assemble_op (wf_seed_iff.2 hv), ← encode_seed_ofInt hv]; rfl
    · next hv => exact assemble_of_not_wf (mt wf_seed_iff.1 hv)
  · exact assemble_of_not_wf (by simp [wf_op_iff_of_ne_seed hm])
  · split
    · next hv => rw [assemble_rawCmd (wf_rawCmd_iff.2 hv), ofInt_eq_ofNat_toNat hv.1]
    · next hv => exact assemble_of_not_wf (mt wf_rawCmd_iff.1 hv)

/-- Settles O6: the table's rows are run, and a mnemonic's word is the encoding of its command. -/
theorem assembledWordDecodesToItsMnemonic : Obligations.AssembledWordDecodesToItsMnemonic := by
  refine ⟨by decide, by decide, fun m operand w hw => ?_⟩
  by_cases hwf : (AsmStmt.op m operand).wf
  · cases (assemble_op hwf).symm.trans hw
    exact decode_encode _
  · exact nomatch (assemble_of_not_wf hwf).symm.trans hw

/-- A refused program is refused at its first line, or that line is taken and the rest is refused. -/
theorem assembleFrom_cons_error {n k : Nat} {e : AsmReason} {l : List Char} {ls : List (List Char)}
    (h : assembleFrom n (l :: ls) = .error (k, e)) :
    (k = n ∧ assembleLine l = .error e) ∨
      ((∃ o, assembleLine l = .ok o) ∧ assembleFrom (n + 1) ls = .error (k, e)) := by
  rw [assembleFrom] at h
  split at h
  · next hl => cases h; exact .inl ⟨rfl, hl⟩
  · next hl hls => cases h; exact .inr ⟨⟨_, hl⟩, hls⟩
  all_goals exact nomatch h

/-- How a program is taken: so are its first line and the rest, and the words are theirs. -/
theorem assembleFrom_cons_ok {n : Nat} {l : List Char} {ls : List (List Char)} {ws : List CmdWord}
    (h : assembleFrom n (l :: ls) = .ok ws) :
    ∃ o us, assembleLine l = .ok o ∧ assembleFrom (n + 1) ls = .ok us ∧ ws = o.toList ++ us := by
  rw [assembleFrom] at h
  split at h
  case h_3 hl hls => cases h; exact ⟨none, _, hl, hls, rfl⟩
  case h_4 hl hls => cases h; exact ⟨some _, _, hl, hls, rfl⟩
  all_goals exact nomatch h

/-- A refused program's number is that of its first refused line. -/
theorem assembleFrom_error (lines : List (List Char)) {n k : Nat} {e : AsmReason}
    (h : assembleFrom n lines = .error (k, e)) :
    ∃ before line after, lines = before ++ line :: after ∧ k = before.length + n ∧ assembleLine line = .error e ∧
      ∀ l ∈ before, ∃ w, assembleLine l = .ok w := by
  induction lines generalizing n with
  | nil => exact nomatch h
  | cons l ls ih =>
    obtain ⟨rfl, hl⟩ | ⟨hl, hls⟩ := assembleFrom_cons_error h
    · exact ⟨[], l, ls, rfl, (Nat.zero_add k).symm, hl, nofun⟩
    · obtain ⟨before, line, after, rfl, rfl, hline, hbefore⟩ := ih hls
      exact ⟨l :: before, line, after, rfl, by rw [List.length_cons]; omega, hline,
        List.forall_mem_cons.2 ⟨hl, hbefore⟩⟩

/-- A program that is taken gives the words of its lines in order. -/
theorem assembleFrom_ok (lines : List (List Char)) {n : Nat} {ws : List CmdWord}
    (h : assembleFrom n lines = .ok ws) :
    ∃ outs : List (Option CmdWord), lines.map assembleLine = outs.map Except.ok ∧ ws = outs.filterMap id := by
  induction lines generalizing n ws with
  | nil => cases h; exact ⟨[], rfl, rfl⟩
  | cons l ls ih =>
    obtain ⟨o, us, hl, hls, rfl⟩ := assembleFrom_cons_ok h
    obtain ⟨outs, houts, rfl⟩ := ih hls
    refine ⟨o :: outs, by rw [List.map_cons, List.map_cons, hl, houts], ?_⟩
    cases o <;> rfl

/-- Settles O7, by induction on the program's lines. -/
theorem assemblerNamesTheFirstBadLine : Obligations.AssemblerNamesTheFirstBadLine :=
  ⟨fun lines _ _ h => assembleFrom_error lines h, fun lines _ h => assembleFrom_ok lines h⟩

/-! ### The ports -/

/-- `cmd_ready` (R72). -/
theorem cmdReady_iff {s : State} : s.cmdReady = true ↔ s.rsp = none ∧ s.pins.rst = false := by
  simp [State.cmdReady, and_comm]

/-- An edge that accepts nothing notes what is offered; without `rst` it leaves the four rows of R30 as they are
(R185). -/
theorem step_of_not_accepting {s : State} (h : s.cmdReady = false ∨ s.pins.cmdValid = false) :
    ∃ t, step s = .next t ∧ t.offered = (if s.pins.cmdValid then addOffer s.pins.cmdWord s.offered else []) ∧
      (s.pins.rst = false →
        t.mt = s.mt ∧ t.index = s.index ∧ t.seeded = s.seeded ∧ t.stickyErr = s.stickyErr) := by
  obtain ⟨hrst, he⟩ | ⟨r, -, -, he⟩ | ⟨hrst, hr, hv, -⟩ | ⟨-, -, -, he⟩ := step_cases s
  · exact ⟨_, he, rfl, fun h' => by simp [hrst] at h'⟩
  · refine ⟨_, he, ?_⟩
    split <;> exact ⟨rfl, fun _ => ⟨rfl, rfl, rfl, rfl⟩⟩
  · simp [cmdReady_iff.2 ⟨hr, hrst⟩, hv] at h
  · exact ⟨_, he, rfl, fun _ => ⟨rfl, rfl, rfl, rfl⟩⟩

/-- An edge that accepts a word runs it; the edge is left behind, the offer ends, and a free value may be used. -/
theorem step_of_accepting {s : State} (hready : s.cmdReady = true) (hv : s.pins.cmdValid = true) :
    ∃ n, step s = runCommand (s.accept s.pins).1 { s with inputs := s.inputs.tail, offered := [], freeCount := n } := by
  obtain ⟨hr, hrst⟩ := cmdReady_iff.1 hready
  obtain ⟨n, hn⟩ := accept_state s.pastEdge s.pins
  refine ⟨n, (risingEdge_of_accept hrst hr hv).trans ?_⟩
  rw [hn, accept_pastEdge_word]
  rfl

/-- An accepted word was offered at this edge or before it in the offer (R71). -/
theorem accept_offered (s : State) (p : PortSample) : (s.accept p).1 = p.cmdWord ∨ (s.accept p).1 ∈ s.offered := by
  obtain h | h := accept_mem s p
  · exact .inl h
  · exact (mem_addOffer_iff.1 h).symm

/-- Settles O11: the accepted word is one of the offer's by `accept_offered`, and an edge that accepts nothing notes
the offer. -/
theorem acceptedWordWasOffered : Obligations.AcceptedWordWasOffered := by
  refine ⟨fun s hrst hr hv => ?_, fun s h => ⟨acceptedWord_of_none h, ?_⟩⟩
  · have hready := cmdReady_iff.2 ⟨hr, hrst⟩
    obtain ⟨n, hstep⟩ := step_of_accepting hready hv
    have hoffered := accept_offered s s.pins
    exact ⟨_, n, acceptedWord_of_accept hready hv, hoffered, fun hsteady => hoffered.elim id (hsteady _), hstep⟩
  · obtain ⟨t, hstep, hoffered, -⟩ := step_of_not_accepting h
    refine ⟨t, hstep, fun hv => ?_, fun hv x => ?_⟩
    · simpa [hv] using hoffered
    · rw [hoffered, if_pos hv, mem_addOffer_iff]

/-- Settles O12: `step_of_not_accepting` says what an edge that accepts nothing keeps, and an idle edge is a state
written out. -/
theorem stateIsHeldBetweenCommands : Obligations.StateIsHeldBetweenCommands := by
  refine ⟨fun s => cmdReady_iff, fun s hrst h => ?_, fun s hrst hr hv => ?_⟩
  · obtain ⟨t, hstep, -, hheld⟩ := step_of_not_accepting h
    exact ⟨t, hstep, hheld hrst⟩
  · refine ⟨_, risingEdge_of_idle hrst hr hv, hr, rfl, ?_⟩
    simp [State.noteOffer, State.pastEdge, hv]

/-- Settles O13, by the edge with a response held, for each level of `rsp_ready`. -/
theorem responseIsHeldUntilTaken : Obligations.ResponseIsHeldUntilTaken := by
  intro s r hrst hr
  have hstep := risingEdge_of_held hrst hr
  refine ⟨by simp [State.rspOut, State.rspValid, hrst, hr], fun hready => ?_, fun hready => ?_⟩
  · rw [hready] at hstep
    exact ⟨_, hstep, hr, rfl⟩
  · rw [hready] at hstep
    exact ⟨_, hstep, rfl, rfl⟩

/-- Settles O14: an accepting edge runs a command word, and every command word answers one legal response. -/
theorem everyAcceptedCommandIsAnswered : Obligations.EveryAcceptedCommandIsAnswered := by
  intro s hready hv
  obtain ⟨n, hstep⟩ := step_of_accepting hready hv
  obtain ⟨m, ix, r, hrun, hlegal, -⟩ := runCommand_eq (s.accept s.pins).1
    { s with inputs := s.inputs.tail, offered := [], freeCount := n }
  exact ⟨_, r, hstep.trans hrun, rfl, rfl, hlegal⟩

/-- A host that holds its word has that word run, on the state with the edge and the offer left behind (R71). -/
theorem step_of_steady_offer {s : State} {w : CmdWord} {ready : Bool} {rest : List PortSample} (hr : s.rsp = none)
    (ho : s.offered = [] ∨ s.offered = [w]) (hi : s.inputs = ⟨false, true, w, ready⟩ :: rest) :
    step s = runCommand w { s with inputs := rest, offered := [] } := by
  have hp : s.pins = ⟨false, true, w, ready⟩ := by rw [State.pins, hi]; rfl
  refine (risingEdge_of_accept (by rw [hp]) hr (by rw [hp])).trans ?_
  rw [accept_steady (s := s.pastEdge) (by rwa [hp]), hp, State.pastEdge, hi]
  rfl

/-- Settles O8: the word of a steady offer runs, and it runs as the command it decodes to. -/
theorem stepRunsTheAcceptedCommand : Obligations.StepRunsTheAcceptedCommand :=
  fun _ _ _ _ _ hr ho hi hd => (step_of_steady_offer hr ho hi).trans (runCommand_of_some hd _)

/-- Settles O10: a placed word is a steady offer with nothing outstanding. -/
theorem placedWordRunsNext : Obligations.PlacedWordRunsNext := by
  intro s w i hd
  have hstep := stepRunsTheAcceptedCommand (s.withFetchWord 40 w) (tableWord 40 w) false s.inputs.tail i rfl (.inl rfl)
    rfl hd
  exact ⟨_, hstep, rfl, rfl, rfl, rfl, rfl⟩

end Sys2Proof.Machine

/-! PROOFS. The family 40_state_manager.md: seeding, the twist, and the stream of draws they give. -/

namespace Sys2Proof.Machine

/-! ### The stream in closed form -/

/-- A draw command of a seeded state is its drawing part. -/
theorem exec_of_drawOf_of_seeded {i : Instr} {body : State → State} (hb : drawOf i = some body) {s : State}
    (hs : s.seeded = true) : exec i s = .next (body s) :=
  (exec_of_drawOf hb s).trans (whenSeeded_of_seeded hs body)

/-- A seeded `NEXT_U32` is one draw and its response (R132). -/
theorem exec_nextU32_of_seeded {s : State} (h : s.seeded = true) :
    exec .nextU32 s = .next ((draw32 s).2.respond codeOk (zext64 (draw32 s).1)) :=
  exec_of_drawOf_of_seeded (i := .nextU32) rfl h

/-- The state n draws after the vector was `m` with all its words used: one twist for every 624 draws begun, and the
cursor behind the word drawn last. -/
def State.DrawnFrom (s : State) (m : Vector Word 624) (n : Nat) : Prop :=
  s.seeded = true ∧ s.mt = twistWords^[(n + 623) / 624] m ∧ s.index.val = (n + 623) % 624 + 1

/-- The next draw takes word n mod 624 of generation n / 624 + 1 (R105, R131). -/
theorem draw32_drawnFrom {s : State} {m : Vector Word 624} {n : Nat} (h : s.DrawnFrom m n) :
    (draw32 s).1 = temper (mtWord (twistWords^[n / 624 + 1] m) (n % 624)) ∧ (draw32 s).2.DrawnFrom m (n + 1) := by
  obtain ⟨hs, hmt, hix⟩ := h
  have hnext : (n + 1 + 623) / 624 = n / 624 + 1 := by omega
  obtain hlt | hexh := index_lt_or_exhausted s
  · have hword : s.index.val = n % 624 := by omega
    have hgen : s.mt = twistWords^[n / 624 + 1] m := by rw [hmt, show (n + 623) / 624 = n / 624 + 1 by omega]
    rw [draw32_of_lt s hlt]
    refine ⟨by rw [hword, hgen], hs, hnext ▸ hgen, ?_⟩
    simp only [Fin.ofNat]
    omega
  · have hword : n % 624 = 0 := by omega
    have hgen : twistWords s.mt = twistWords^[n / 624 + 1] m := by
      rw [hmt, show (n + 623) / 624 = n / 624 by omega, Function.iterate_succ_apply']
    rw [draw32_of_exhausted s hexh]
    refine ⟨by rw [hword, hgen], hs, hnext ▸ hgen, ?_⟩
    change 1 = (n + 1 + 623) % 624 + 1
    omega

/-- n `NEXT_U32` are n draws (R132). -/
theorem repeatExec_nextU32 {s : State} {m : Vector Word 624} (h : s.DrawnFrom m 0) (n : Nat) :
    ∃ t, repeatExec .nextU32 n s = .next t ∧ t.DrawnFrom m n := by
  induction n with
  | zero => exact ⟨s, rfl, h⟩
  | succ n ih =>
    obtain ⟨t, hrun, ht⟩ := ih
    obtain ⟨-, hnext⟩ := draw32_drawnFrom ht
    obtain ⟨hs, -, -⟩ := ht
    refine ⟨(draw32 t).2.respond codeOk (zext64 (draw32 t).1), ?_, hnext⟩
    rw [repeatExec, hrun]
    exact exec_nextU32_of_seeded hs

/-- Settles O49, by induction on the number of draws, each of which keeps `State.DrawnFrom`. -/
theorem drawsFollowOneTwistPer624 : Obligations.DrawsFollowOneTwistPer624 := by
  intro v s n
  obtain ⟨u, hrun, hu⟩ := repeatExec_nextU32 (s := { s with
    mt := initState s.mt v, index := 624, seeded := true, rsp := some ⟨codeOk, 0⟩ }) ⟨rfl, rfl, rfl⟩ n
  obtain ⟨hword, -⟩ := draw32_drawnFrom hu
  obtain ⟨hs, hmt, hix⟩ := hu
  refine ⟨_, u, _, exec_seed v s, hrun, hmt, ?_, exec_nextU32_of_seeded hs, ?_⟩
  · rw [hix]
    split <;> omega
  · rw [State.respond_rsp, hword]
    rfl

/-! ### SEED -/

/-- Settles O24: the decoder reads `DATA`, and `InitState` writes the recurrence. -/
theorem seedWritesTheRecurrence : Obligations.SeedWritesTheRecurrence := by
  refine ⟨fun w hop => decode_eq_some_iff.2 ⟨hop, fun _ hi => Instr.seed.inj hi⟩, fun v s => ?_⟩
  obtain ⟨hzero, hsucc⟩ := mtWord_initState s.mt v
  refine ⟨initState s.mt v, exec_seed v s, hzero, fun i h1 h2 => ?_⟩
  obtain ⟨k, rfl⟩ := Nat.exists_eq_add_of_le' h1
  exact hsucc k (by omega)

/-- Two states that hold the same stream: `sticky_err` and the ports may differ. -/
def State.SameStream (s t : State) : Prop := s.mt = t.mt ∧ s.index = t.index ∧ s.seeded = t.seeded

/-- A draw of the same stream gives the same word and leaves the same stream (R131). -/
theorem draw32_sameStream {s t : State} (h : s.SameStream t) :
    (draw32 s).1 = (draw32 t).1 ∧ (draw32 s).2.SameStream (draw32 t).2 := by
  obtain ⟨hm, hi, hs⟩ := h
  obtain ⟨hword, hmt, hix⟩ := draw32_congr hm hi
  exact ⟨hword, hmt, hix, by simpa using hs⟩

/-- So does the drawing part of a command, with the response it makes of its words. -/
theorem drawOf_sameStream {i : Instr} {body : State → State} (hb : drawOf i = some body) {s t : State}
    (h : s.SameStream t) : (body s).SameStream (body t) ∧ (body s).rsp = (body t).rsp := by
  obtain ⟨hfst, hone⟩ := draw32_sameStream h
  obtain ⟨hsnd, htwo⟩ := draw32_sameStream hone
  cases i with
  | nop | seed => exact nomatch hb
  | nextU32 | nextF32 | nextF64 =>
    cases hb
    exact ⟨hone, by simp [drawU32, drawF32, drawF64, hfst]⟩
  | nextU64 =>
    cases hb
    exact ⟨htwo, by simp [drawU64, hfst, hsnd]⟩

/-- So does any command word: no command reads `sticky_err` or the ports. -/
theorem runCommand_sameStream {s t s' t' : State} (h : s.SameStream t) {w : CmdWord}
    (hrun : runCommand w s = .next s') (hrun' : runCommand w t = .next t') :
    s'.SameStream t' ∧ s'.rsp = t'.rsp := by
  have ⟨_, _, hseeded⟩ := h
  cases hd : decode w with
  | none =>
    rw [runCommand_of_none hd] at hrun hrun'
    cases (cmdError_eq codeIllegalOp s).symm.trans hrun
    cases (cmdError_eq codeIllegalOp t).symm.trans hrun'
    exact ⟨h, rfl⟩
  | some i =>
    rw [runCommand_of_some hd] at hrun hrun'
    obtain ⟨rfl, he⟩ | ⟨v, rfl, he⟩ | ⟨body, hb, hs, he⟩ | ⟨body, hb, hs, he⟩ := exec_cases i s
    · cases he.symm.trans hrun
      cases (exec_nop t).symm.trans hrun'
      exact ⟨h, rfl⟩
    · cases he.symm.trans hrun
      cases (exec_seed v t).symm.trans hrun'
      exact ⟨⟨initState_congr _ _ v, rfl, rfl⟩, rfl⟩
    · cases he.symm.trans hrun
      cases ((exec_of_drawOf hb t).trans (whenSeeded_of_unseeded (hseeded.symm.trans hs) body)).symm.trans hrun'
      exact ⟨h, rfl⟩
    · cases he.symm.trans hrun
      cases (exec_of_drawOf_of_seeded hb (hseeded.symm.trans hs)).symm.trans hrun'
      exact drawOf_sameStream hb h

/-- Serving a word from the same stream adds the same response to the host's record. -/
theorem serve_sameStream {s t : State} (h : s.SameStream t) (w : CmdWord) :
    (serve s w).SameStream (serve t w) ∧
      ∃ r, (serve s w).taken = s.taken ++ [r] ∧ (serve t w).taken = t.taken ++ [r] := by
  obtain ⟨m, ix, r, hrun, -, -⟩ := runCommand_eq w s
  obtain ⟨m', ix', r', hrun', -, -⟩ := runCommand_eq w t
  obtain ⟨hsame, hrsp⟩ := runCommand_sameStream h hrun hrun'
  cases hrsp
  rw [serve, serve, hrun, hrun']
  exact ⟨hsame, r, rfl, rfl⟩

/-- So does serving any words. -/
theorem serveAll_sameStream (ws : List CmdWord) {s t : State} (h : s.SameStream t) :
    ∃ rs, (serveAll s ws).taken = s.taken ++ rs ∧ (serveAll t ws).taken = t.taken ++ rs := by
  induction ws generalizing s t with
  | nil => exact ⟨[], (List.append_nil _).symm, (List.append_nil _).symm⟩
  | cons w ws ih =>
    obtain ⟨hsame, r, hs, ht⟩ := serve_sameStream h w
    obtain ⟨rs, hrs, hrt⟩ := ih hsame
    refine ⟨r :: rs, ?_, ?_⟩
    · rw [serveAll_cons, hrs, hs, List.append_assoc, List.singleton_append]
    · rw [serveAll_cons, hrt, ht, List.append_assoc, List.singleton_append]

/-- A served `SEED` (R100, R76). -/
theorem serve_seed (v : Word) (s : State) : serve s (encode (.seed v)) =
    { s with mt := initState s.mt v, index := 624, seeded := true, rsp := none,
             taken := s.taken ++ [⟨codeOk, 0⟩] } := by
  rw [serve, runCommand_of_some (decode_encode _), exec_seed]
  rfl

/-- Settles O25: `SEED` leaves the same stream whatever it overwrites, and equal streams give equal responses. -/
theorem seedForgetsTheOldStream : Obligations.SeedForgetsTheOldStream := by
  intro v s s'
  have hinit := initState_congr s.mt s'.mt v
  refine ⟨⟨_, _, exec_seed v s, exec_seed v s', hinit, rfl, rfl, rfl⟩, fun ws => ?_⟩
  have hsame : (serve s (encode (.seed v))).SameStream (serve s' (encode (.seed v))) := by
    rw [serve_seed, serve_seed]
    exact ⟨hinit, rfl, rfl⟩
  obtain ⟨rs, hs, hs'⟩ := serveAll_sameStream ws hsame
  refine ⟨⟨codeOk, 0⟩ :: rs, ?_, ?_⟩
  · rw [serveAll_cons, hs, serve_seed, List.append_assoc, List.singleton_append]
  · rw [serveAll_cons, hs', serve_seed, List.append_assoc, List.singleton_append]

/-! ### The words a twist leaves -/

theorem mtWord_add_624 (mt : Vector Word 624) (i : Nat) : mtWord mt (i + 624) = mtWord mt i := by
  rw [← mtWord_mod, Nat.add_mod_right, mtWord_mod]

/-- The vector `y` that the steps below `k` of a twist of `m` have left (R106, R107): the words from `k` on are the old
ones, and a word below `k` was made from old words, except for the neighbour of word 623 and for the offset word from
227 on. -/
def TwistedBelow (m : Vector Word 624) (k : Nat) (y : Vector Word 624) : Prop :=
  (∀ j, k ≤ j → j < 624 → mtWord y j = mtWord m j) ∧
    ∀ j < k, mtWord y j = twistWord (mtWord m j) (if j < 623 then mtWord m (j + 1) else mtWord y 0)
      (if j < 227 then mtWord m (j + 397) else mtWord y (j - 227))

/-- Step k of a twist reads the old words from k on and the new ones below k, and writes word k. -/
theorem twistStep_twistedBelow {m y : Vector Word 624} {k : Nat} (hk : k < 624) (h : TwistedBelow m k y) :
    TwistedBelow m (k + 1) (twistStep y k) := by
  obtain ⟨hold, hnew⟩ := h
  have keeps : ∀ j < 624, j ≠ k → mtWord (twistStep y k) j = mtWord y j := fun j hj hne =>
    twistStep_other y (by omega)
  refine ⟨fun j hkj hj => (keeps j hj (by omega)).trans (hold j (by omega) hj), fun j hj => ?_⟩
  obtain hlt | rfl : j < k ∨ j = k := by omega
  · rw [keeps j (by omega) (by omega), hnew j hlt, keeps 0 (by omega) (by omega),
      keeps (j - 227) (by omega) (by omega)]
  · rw [twistStep_same, hold j (Nat.le_refl j) hk]
    congr 1
    · split
      · exact hold (j + 1) (by omega) (by omega)
      · obtain rfl : j = 623 := by omega
        exact (mtWord_add_624 y 0).trans (keeps 0 (by omega) (by omega)).symm
    · split
      · exact hold (j + 397) (by omega) (by omega)
      · rw [keeps (j - 227) (by omega) (by omega), ← mtWord_add_624 y (j - 227)]
        congr 1
        omega

/-- The word a whole twist leaves at i (R104, R106, R107). -/
theorem mtWord_twistWords (m : Vector Word 624) {i : Nat} (hi : i < 624) :
    mtWord (twistWords m) i =
      twistWord (mtWord m i) (if i < 623 then mtWord m (i + 1) else mtWord (twistWords m) 0)
        (if i < 227 then mtWord m (i + 397) else mtWord (twistWords m) (i - 227)) := by
  obtain ⟨-, hnew⟩ : TwistedBelow m 624 (twistWords m) := by
    rw [twistWords_eq]
    exact forUpTo_induction twistStep m (TwistedBelow m) 624 ⟨fun _ _ _ => rfl, nofun⟩ fun _ _ =>
      twistStep_twistedBelow
  exact hnew i hi

/-- The two forms of R104's step: the matrix constant enters when bit 0 of y is 1. -/
theorem twistWord_eq (cur nxt off : Word) : twistWord cur nxt off =
    off ^^^ (twistY cur nxt >>> 1) ^^^ (if (twistY cur nxt).getLsbD 0 = true then matrixA else 0) := by
  have hbit : twistY cur nxt &&& 1 = 1 ↔ (twistY cur nxt).getLsbD 0 = true := by
    rw [show (1 : Word) = BitVec.twoPow 32 0 from rfl, BitVec.and_twoPow]
    cases (twistY cur nxt).getLsbD 0 <;> decide
  simp only [twistWord, hbit]
  split <;> simp

/-- Settles O26, from the word a twist leaves at each place. -/
theorem twistLeavesTheInPlaceWords : Obligations.TwistLeavesTheInPlaceWords := by
  refine ⟨twist_eq, fun m => ⟨fun i hi => ?_, fun i h1 h2 => ?_, ?_⟩⟩
  · rw [mtWord_twistWords m (by omega), if_pos (by omega), if_pos (by omega)]
    exact twistWord_eq _ _ _
  · rw [mtWord_twistWords m (by omega), if_pos (by omega), if_neg (by omega)]
    exact twistWord_eq _ _ _
  · rw [mtWord_twistWords m (by omega), if_neg (by omega), if_neg (by omega)]
    exact twistWord_eq _ _ _

/-- A twist step reads only bit 31 of its own word (R104). -/
theorem twistWord_congr_cur {cur cur' : Word} (h : cur.getLsbD 31 = cur'.getLsbD 31) (nxt off : Word) :
    twistWord cur nxt off = twistWord cur' nxt off := by
  have hy : twistY cur nxt = twistY cur' nxt := by
    rw [twistY, twistY, show upperMask = BitVec.twoPow 32 31 from rfl, BitVec.and_twoPow, BitVec.and_twoPow, h]
  rw [twistWord_eq, twistWord_eq, hy]

/-- Settles O27, by strong induction on the place: the words a step reads are old ones the vectors agree in, but for bit
31 of word 0, or new ones from before it. -/
theorem twistReadsOnlyBit31OfWordZero : Obligations.TwistReadsOnlyBit31OfWordZero := by
  intro a b hzero hrest
  refine mt_ext fun i => ?_
  induction i using Nat.strong_induction_on with
  | _ i ih =>
    intro hi
    rw [mtWord_twistWords a hi, mtWord_twistWords b hi]
    have hcur : (mtWord a i).getLsbD 31 = (mtWord b i).getLsbD 31 := by
      obtain rfl | hpos := Nat.eq_zero_or_pos i
      · exact hzero
      · rw [hrest i hpos (by omega)]
    rw [twistWord_congr_cur hcur]
    congr 1
    · split
      · exact hrest (i + 1) (by omega) (by omega)
      · exact ih 0 (by omega) (by omega)
    · split
      · exact hrest (i + 397) (by omega) (by omega)
      · exact ih (i - 227) (by omega) (by omega)

/-! ### Which commands twist -/

/-- A draw command twists exactly when one of its draws meets the end of the vector (R105, R131). -/
theorem drawOf_mt {i : Instr} {body : State → State} (hb : drawOf i = some body) (s : State) : (body s).mt =
    if s.index.val = 624 ∨ (s.index.val = 623 ∧ i = .nextU64) then twistWords s.mt else s.mt := by
  cases i with
  | nop | seed => exact nomatch hb
  | nextU32 | nextF32 | nextF64 =>
    cases hb
    simp only [reduceCtorEq, and_false, or_false]
    exact draw32_mt s
  | nextU64 =>
    cases hb
    have hmt : (drawU64 s).mt = (draw32 (draw32 s).2).2.mt := rfl
    rw [hmt, draw32_mt, draw32_mt, draw32_index]
    obtain hlt | hexh := index_lt_or_exhausted s
    · simp [hlt.ne]
    · simp [hexh]

/-- Settles O28, by the four things a command can be. -/
theorem onlySeedAndTwistWriteMt : Obligations.OnlySeedAndTwistWriteMt := by
  intro i s t h hseed
  obtain ⟨rfl, he⟩ | ⟨v, rfl, -⟩ | ⟨body, -, -, he⟩ | ⟨body, hb, hs, he⟩ := exec_cases i s
  · cases he.symm.trans h
    exact .inl ⟨rfl, fun _ => rfl⟩
  · exact absurd rfl (hseed v)
  · cases he.symm.trans h
    exact .inl ⟨rfl, fun _ => rfl⟩
  · cases he.symm.trans h
    have hmt := drawOf_mt hb s
    split at hmt
    case isTrue hend =>
      exact .inr ⟨hmt, hs, (by rintro rfl; exact nomatch hb), hend.imp Fin.ext (.imp_left Fin.ext)⟩
    case isFalse hend =>
      exact .inl ⟨hmt, fun hix => absurd (.inl (congrArg Fin.val hix)) hend⟩

/-- Two states with the same next draw are the same to every draw command. -/
theorem drawOf_congr {i : Instr} {body : State → State} (hb : drawOf i = some body) {s t : State}
    (h : draw32 s = draw32 t) : body s = body t := by
  cases i with
  | nop | seed => exact nomatch hb
  | nextU32 | nextU64 | nextF32 | nextF64 =>
    cases hb
    simp only [drawU32, drawU64, drawF32, drawF64, h]

/-- Settles O29: the two states have the same next draw. -/
theorem eagerFirstTwistIsNotSeen : Obligations.EagerFirstTwistIsNotSeen := by
  intro s i hs hi
  obtain ⟨body, hb⟩ : ∃ body, drawOf i = some body := by
    obtain rfl | rfl | rfl | rfl := hi <;> exact ⟨_, rfl⟩
  have hdraw : draw32 { s with mt := twistWords s.mt, index := 0 } = draw32 { s with index := 624 } := by
    rw [draw32_of_lt _ (by simp), draw32_of_exhausted _ rfl]
    rfl
  calc exec i { s with mt := twistWords s.mt, index := 0 }
    _ = .next (body { s with mt := twistWords s.mt, index := 0 }) := exec_of_drawOf_of_seeded hb hs
    _ = .next (body { s with index := 624 }) := by rw [drawOf_congr hb hdraw]
    _ = exec i { s with index := 624 } := (exec_of_drawOf_of_seeded (s := { s with index := 624 }) hb hs).symm

end Sys2Proof.Machine

/-! PROOFS. The family 41_output_transform.md: tempering, the draws, and the [0, 1] float converter. -/

namespace Sys2Proof.Machine

/-! ### Tempering -/

/-- A right shift xored in is undone from the top bit down: bit i of `y` is bit i of the image, but for bit i + k of
`y` (R133). -/
theorem xor_ushiftRight_injective {w k : Nat} (hk : 0 < k) :
    Function.Injective fun y : BitVec w => y ^^^ (y >>> k) := by
  intro y z h
  have hbit : ∀ n i, w ≤ i + n → y.getLsbD i = z.getLsbD i := by
    intro n
    induction n with
    | zero => intro i hi; rw [BitVec.getLsbD_of_ge y i hi, BitVec.getLsbD_of_ge z i hi]
    | succ n ih =>
      intro i hi
      have himage := congrArg (·.getLsbD i) h
      simpa [BitVec.getLsbD_xor, BitVec.getLsbD_ushiftRight, ih (k + i) (by omega)] using himage
  exact BitVec.eq_of_getLsbD_eq fun i _ => hbit w i (by omega)

/-- A masked left shift xored in is undone from the bottom bit up (R133). -/
theorem xor_shiftLeft_and_injective {w k : Nat} (hk : 0 < k) (c : BitVec w) :
    Function.Injective fun y : BitVec w => y ^^^ ((y <<< k) &&& c) := by
  intro y z h
  refine BitVec.eq_of_getLsbD_eq fun i => ?_
  induction i using Nat.strong_induction_on with
  | _ i ih =>
    intro hi
    have himage := congrArg (·.getLsbD i) h
    obtain hlt | hle := Nat.lt_or_ge i k
    · simpa [BitVec.getLsbD_xor, BitVec.getLsbD_and, BitVec.getLsbD_shiftLeft, hlt] using himage
    · simpa [BitVec.getLsbD_xor, BitVec.getLsbD_and, BitVec.getLsbD_shiftLeft,
        ih (i - k) (by omega) (by omega)] using himage

/-- Tempering is four injective lines (R130). -/
theorem temper_injective : Function.Injective temper :=
  (xor_ushiftRight_injective (k := 18) (by decide)).comp <|
    (xor_shiftLeft_and_injective (k := 15) (by decide) temperMaskC).comp <|
      (xor_shiftLeft_and_injective (k := 7) (by decide) temperMaskB).comp
        (xor_ushiftRight_injective (k := 11) (by decide))

theorem temper_bijective : Function.Bijective temper := Finite.injective_iff_bijective.1 temper_injective

@[simp] theorem temper_zero : temper 0 = 0 := by decide

/-- Settles O31: an injection of a finite type is a bijection. -/
theorem temperIsABijection : Obligations.TemperIsABijection :=
  ⟨temper_bijective, temper_zero, fun _ _ => temper_injective.eq_iff⟩

/-- Settles O30, by `temper`'s own lines. -/
theorem temperRunsItsFourLines : Obligations.TemperRunsItsFourLines :=
  fun _ => ⟨_, _, _, rfl, rfl, rfl, rfl⟩

/-! ### The draws -/

/-- A draw at index 624 (R131). -/
theorem draw32_at_624 {s : State} (h : s.index = 624) :
    draw32 s = (temper (mtWord (twistWords s.mt) 0), { s with mt := twistWords s.mt, index := 1 }) :=
  draw32_of_exhausted s (congrArg Fin.val h)

/-- A draw at any other index (R131). -/
theorem draw32_below_624 {s : State} (h : s.index ≠ 624) :
    draw32 s = (temper (mtWord s.mt s.index.val), { s with index := s.index + 1 }) :=
  draw32_of_lt s ((index_lt_or_exhausted s).resolve_right fun hval => h (Fin.ext hval))

/-- Settles O32, by the draw at index 624 and the draw below it. -/
theorem drawTakesTheWordAtTheCursor : Obligations.DrawTakesTheWordAtTheCursor := fun s =>
  ⟨draw32_at_624, draw32_below_624, draw32_index_pos s, by omega⟩

/-- A draw does not look at a held response. -/
theorem draw32_respond (s : State) (c : BitVec 2) (d : DWord) :
    draw32 (s.respond c d) = ((draw32 s).1, (draw32 s).2.respond c d) := by
  refine (draw32_withArch (s.respond c d) s).trans ?_
  rw [draw32_frame s]
  rfl

/-- The pair of two words is the first above the second (R17). -/
theorem joinWords_eq_append (a b : Word) : joinWords a b = (a ++ b : BitVec (32 + 32)) := by
  refine BitVec.eq_of_getLsbD_eq fun i hi => ?_
  refine Eq.trans ?_ BitVec.getLsbD_append.symm
  obtain hlt | hle := Nat.lt_or_ge i 32
  · simp [joinWords, zext64, hlt, hi]
  · simp [joinWords, zext64, hle, hi]

/-! ### The commands -/

/-- A draw command of an unseeded state is refused with NOT_SEEDED (R173). -/
theorem exec_of_drawOf_of_unseeded {i : Instr} {body : State → State} (hb : drawOf i = some body) {s : State}
    (hs : s.seeded = false) : exec i s = .next { s with stickyErr := true, rsp := some ⟨codeNotSeeded, 0⟩ } :=
  (exec_of_drawOf hb s).trans (whenSeeded_of_unseeded hs body)

/-- Settles O38: the opcode is `NOP`'s, and `NOP` is its response. -/
theorem nopOnlyResponds : Obligations.NopOnlyResponds :=
  ⟨fun _ hop => decode_eq_some_iff.2 ⟨hop, nofun⟩, exec_nop⟩

/-- Settles O33, by the one draw of a seeded `NEXT_U32`. -/
theorem nextU32ReturnsTheNextWord : Obligations.NextU32ReturnsTheNextWord := by
  refine ⟨fun _ hop => decode_eq_some_iff.2 ⟨hop, nofun⟩, fun s hs => ⟨fun h => ?_, fun h => ?_⟩,
    fun _ => exec_of_drawOf_of_unseeded (i := .nextU32) rfl⟩
  · rw [exec_nextU32_of_seeded hs, draw32_at_624 h]
    rfl
  · rw [exec_nextU32_of_seeded hs, draw32_below_624 h]
    rfl

/-- A seeded `NEXT_U64` is two draws and the response to both (R135). -/
theorem exec_nextU64_of_seeded {s : State} (h : s.seeded = true) : exec .nextU64 s =
    .next ((draw32 (draw32 s).2).2.respond codeOk (joinWords (draw32 s).1 (draw32 (draw32 s).2).1)) :=
  exec_of_drawOf_of_seeded (i := .nextU64) rfl h

/-- Settles O34: the second `NEXT_U32` draws from the state the first draw left, whatever response is held. -/
theorem nextU64IsTwoNextU32 : Obligations.NextU64IsTwoNextU32 := by
  refine ⟨fun _ hop => decode_eq_some_iff.2 ⟨hop, nofun⟩, fun s hs => ?_,
    fun _ => exec_of_drawOf_of_unseeded (i := .nextU64) rfl⟩
  refine ⟨(draw32 s).1, (draw32 (draw32 s).2).1, _, _, exec_nextU32_of_seeded hs, rfl,
    exec_nextU32_of_seeded (by simpa using hs), ?_, ?_⟩
  · rw [draw32_respond]
    rfl
  · rw [exec_nextU64_of_seeded hs, draw32_respond, joinWords_eq_append]
    rfl

/-- Settles O35: at 623 the second draw meets index 624, and at 624 the first does. -/
theorem nextU64MayStraddleATwist : Obligations.NextU64MayStraddleATwist := by
  refine fun s hs => ⟨fun h => ?_, fun h => ?_⟩
  · have hfirst : draw32 s = (temper (mtWord s.mt 623), { s with index := 624 }) := by
      rw [draw32_below_624 (by simp [h]), h]
      rfl
    rw [exec_nextU64_of_seeded hs, hfirst, draw32_at_624 rfl, joinWords_eq_append]
    rfl
  · have hsecond : draw32 { s with mt := twistWords s.mt, index := 1 } =
        (temper (mtWord (twistWords s.mt) 1), { s with mt := twistWords s.mt, index := 2 }) :=
      draw32_below_624 (s := { s with mt := twistWords s.mt, index := 1 }) (by simp)
    rw [exec_nextU64_of_seeded hs, draw32_at_624 h, hsecond, joinWords_eq_append]
    rfl

/-- Settles O36: `NEXT_F32` makes the draw of `NEXT_U32` and converts it. -/
theorem nextF32ConvertsOneDraw : Obligations.NextF32ConvertsOneDraw := by
  refine ⟨fun _ hop => decode_eq_some_iff.2 ⟨hop, nofun⟩, fun s hs => ?_,
    fun _ => exec_of_drawOf_of_unseeded (i := .nextF32) rfl⟩
  exact ⟨(draw32 s).1, _, exec_nextU32_of_seeded hs, rfl, exec_of_drawOf_of_seeded (i := .nextF32) rfl hs,
    fun m => whenSeeded_of_seeded hs (drawF32 m)⟩

/-- Settles O37: `NEXT_F64` makes the draws of its source's command and converts them. -/
theorem nextF64ConvertsItsSource : Obligations.NextF64ConvertsItsSource := by
  refine ⟨fun _ hop => decode_eq_some_iff.2 ⟨hop, nofun⟩, fun s hs => ?_,
    fun _ => exec_of_drawOf_of_unseeded (i := .nextF64) rfl⟩
  exact ⟨(draw32 s).1, _, _, _, exec_nextU32_of_seeded hs, rfl, exec_nextU64_of_seeded hs, rfl,
    exec_of_drawOf_of_seeded (i := .nextF64) rfl hs, whenSeeded_of_seeded hs (drawF64 .u32),
    whenSeeded_of_seeded hs (drawF64 .u64)⟩

/-! ### Nearest values -/

/-- The greater of two values is as near to q when q is not below their middle. -/
theorem abs_sub_right_le_iff {v w q : ℚ} (h : v < w) : |w - q| ≤ |v - q| ↔ v + w ≤ 2 * q := by
  rw [← sq_le_sq]
  constructor <;> intro hq <;> nlinarith

/-- The lesser is when q is not above it. -/
theorem abs_sub_left_le_iff {v w q : ℚ} (h : v < w) : |v - q| ≤ |w - q| ↔ 2 * q ≤ v + w := by
  rw [← sq_le_sq]
  constructor <;> intro hq <;> nlinarith

/-- No finite value is nearer. -/
theorem FloatFormat.IsNearest.le {f : FloatFormat} {q : ℚ} {b c : Nat} (h : f.IsNearest q b) (hc : c < f.infBits) :
    |f.value b - q| ≤ |f.value c - q| := by
  obtain rfl | hne := eq_or_ne c b
  · exact le_rfl
  · exact (h.2 c hc hne).elim le_of_lt fun htie => htie.1.le

/-- Of two equally near values the nearest has the even significand. -/
theorem FloatFormat.IsNearest.even {f : FloatFormat} {q : ℚ} {b c : Nat} (h : f.IsNearest q b) (hc : c < f.infBits)
    (hne : c ≠ b) (htie : |f.value c - q| ≤ |f.value b - q|) : b % 2 = 0 :=
  (h.2 c hc hne).elim (fun hlt => absurd htie hlt.not_ge) And.right

/-- Nearest values are ordered as what they are nearest to. Out of order, both quotients would lie at the middle of the
two values; then both patterns are even, and one between them is nearer. -/
theorem FloatFormat.IsNearest.mono {f : FloatFormat} {q r : ℚ} {a b : Nat} (ha : f.IsNearest q a)
    (hb : f.IsNearest r b) (hqr : q ≤ r) : a ≤ b := by
  by_contra! hlt
  have hainf := ha.1
  have hbinf := hb.1
  have hval := value_lt (f := f) hlt
  have hq : f.value b + f.value a ≤ 2 * q := (abs_sub_right_le_iff hval).1 (ha.le hbinf)
  have hr : 2 * r ≤ f.value b + f.value a := (abs_sub_left_le_iff hval).1 (hb.le hainf)
  have haeven : a % 2 = 0 := ha.even hbinf hlt.ne ((abs_sub_left_le_iff hval).2 (by linarith))
  have hbeven : b % 2 = 0 := hb.even hainf hlt.ne' ((abs_sub_right_le_iff hval).2 (by linarith))
  have hbetween : b + 1 < a := by omega
  have hnear := (abs_sub_right_le_iff (value_lt hbetween)).1 (ha.le (c := b + 1) (by omega))
  linarith [value_lt (f := f) (Nat.lt_succ_self b)]

/-- The value of a finite pattern is strictly nearest to itself. -/
theorem strictlyNearest_value {f : FloatFormat} {c : Nat} (hc : c < f.infBits) : f.IsStrictlyNearest (f.value c) c := by
  refine ⟨hc, fun b _ hb => ?_⟩
  rw [sub_self, abs_zero, abs_pos, sub_ne_zero]
  exact (Nat.lt_or_gt_of_ne hb).elim (fun h => (value_lt h).ne) fun h => (value_lt h).ne'

/-- What is nearest to a value is that value's pattern. -/
theorem FloatFormat.IsNearest.eq_of_value {f : FloatFormat} {b c : Nat} (h : f.IsNearest (f.value c) b)
    (hc : c < f.infBits) : b = c :=
  have hself := nearest_of_strictly (strictlyNearest_value hc)
  le_antisymm (h.mono hself le_rfl) (hself.mono h le_rfl)

/-- A nearest value that is what it is nearest to is strictly nearest. -/
theorem FloatFormat.IsNearest.strictly_of_value {f : FloatFormat} {q : ℚ} {b c : Nat} (h : f.IsNearest q b)
    (hc : c < f.infBits) (hq : f.value c = q) : f.IsStrictlyNearest q b := by
  subst hq
  obtain rfl := h.eq_of_value hc
  exact strictlyNearest_value hc

/-! ### Some values -/

/-- The pattern of 1.0: the exponent field is the bias, and the fraction is 0. -/
def FloatFormat.oneBits (f : FloatFormat) : Nat := f.bias * 2 ^ f.fracBits

/-- The next pattern is one unit in the last place further. -/
theorem units_succ (f : FloatFormat) (b : Nat) : f.units (b + 1) = f.units b + 2 ^ (b / 2 ^ f.fracBits - 1) := by
  have hp : 0 < 2 ^ f.fracBits := by positivity
  have hm := Nat.mod_lt b hp
  have hb := Nat.div_add_mod' b (2 ^ f.fracBits)
  generalize b / 2 ^ f.fracBits = E at hb ⊢
  generalize b % 2 ^ f.fracBits = m at hb hm
  obtain rfl | ⟨k, rfl⟩ : E = 0 ∨ ∃ k, E = k + 1 := E.eq_zero_or_eq_succ_pred.imp_right fun h => ⟨_, h⟩
  · have hsig := units_sig f 0 m (by omega) (.inl rfl)
    have hnext := units_sig f 0 (m + 1) (by omega) (.inl rfl)
    simp only [Nat.zero_mul, Nat.zero_add, Nat.pow_zero, Nat.mul_one] at hb hsig hnext ⊢
    rw [← hb, hsig, hnext]
    rfl
  · have hsig := units_sig f k (2 ^ f.fracBits + m) (by omega) (.inr (by omega))
    have hnext := units_sig f k (2 ^ f.fracBits + m + 1) (by omega) (.inr (by omega))
    have hbits : b = k * 2 ^ f.fracBits + (2 ^ f.fracBits + m) := by rw [← hb, Nat.add_mul]; omega
    rw [hbits, hsig, Nat.add_assoc, hnext, Nat.add_sub_cancel]
    ring

/-- Values up to 1.0 are at most one unit in its last place apart. -/
theorem value_succ_sub_le {f : FloatFormat} (hb : 1 ≤ f.bias) {b : Nat} (h : b ≤ f.oneBits) :
    f.value (b + 1) - f.value b ≤ 2 ^ (-(f.fracBits : ℤ)) := by
  have hE : b / 2 ^ f.fracBits ≤ f.bias := Nat.div_le_of_le_mul (by rwa [Nat.mul_comm])
  rw [value_eq_units, value_eq_units, ← sub_mul, units_succ, Nat.cast_add, add_sub_cancel_left]
  push_cast
  rw [← zpow_natCast, ← zpow_add₀ two_ne_zero]
  exact zpow_le_zpow_right₀ (by norm_num) (by omega)

/-- One pattern is nearest to no two quotients further apart than its neighbours are from it. -/
theorem FloatFormat.IsNearest.quotient_sub_le {f : FloatFormat} {q r u : ℚ} {b : Nat} (hq : f.IsNearest q b)
    (hr : f.IsNearest r b) (hpos : 1 ≤ b) (hinf : b + 1 < f.infBits) (hbelow : f.value b - f.value (b - 1) ≤ u)
    (habove : f.value (b + 1) - f.value b ≤ u) : r - q ≤ u := by
  have hq' := (abs_sub_right_le_iff (value_lt (by omega))).1 (hq.le (c := b - 1) (by omega))
  have hr' := (abs_sub_left_le_iff (value_lt (by omega))).1 (hr.le (c := b + 1) hinf)
  linarith

/-- A greater exponent field of a normal value is a power of two. -/
theorem value_add_exponent (f : FloatFormat) {b : Nat} (h : 2 ^ f.fracBits ≤ b) (k : Nat) :
    f.value (b + k * 2 ^ f.fracBits) = f.value b * 2 ^ k := by
  have hp : 0 < 2 ^ f.fracBits := by positivity
  have hE : 1 ≤ b / 2 ^ f.fracBits := (Nat.one_le_div_iff hp).2 h
  rw [FloatFormat.value, FloatFormat.value, Nat.add_mul_div_right b k hp, Nat.add_mul_mod_self_right,
    if_neg (by omega), if_neg (by omega), mul_assoc, ← zpow_natCast, ← zpow_add₀ two_ne_zero]
  congr 2
  push_cast
  ring

theorem value_strictMono (f : FloatFormat) : StrictMono f.value := fun _ _ => value_lt

/-- A quotient strictly between 0 and 1 with an odd divisor is no dyadic rational (R141). -/
theorem div_ne_dyadic {n d : Nat} (hn : 0 < n) (hlt : n < d) (hodd : Odd d) (m e : ℤ) :
    (n : ℚ) / d ≠ m * 2 ^ e := by
  intro h
  have hd : (d : ℚ) ≠ 0 := by exact_mod_cast hodd.pos.ne'
  have hpow : (2 : ℚ) ^ e * 2 ^ (-e).toNat = 2 ^ e.toNat := by
    rw [← zpow_natCast, ← zpow_natCast, ← zpow_add₀ two_ne_zero]
    congr 1
    omega
  have hmul : (n : ℚ) * 2 ^ (-e).toNat = d * (m * 2 ^ e.toNat) := by
    rw [div_eq_iff hd] at h
    rw [h, ← hpow]
    ring
  have hdvd : (d : ℤ) ∣ n * 2 ^ (-e).toNat := ⟨m * 2 ^ e.toNat, by exact_mod_cast hmul⟩
  have hcop : d.Coprime (2 ^ (-e).toNat) := (Nat.coprime_two_right.2 hodd).pow_right _
  exact absurd (Nat.le_of_dvd hn (hcop.dvd_of_dvd_mul_right (by exact_mod_cast hdvd))) (by omega)

/-! ### Roundings below overflow -/

/-- A format with room above 2^32, where every quotient of this unit's lies. -/
def FloatFormat.Roomy (f : FloatFormat) : Prop :=
  1 ≤ f.fracBits ∧ 32 < f.bias ∧ (2 * f.bias + 1) * 2 ^ f.fracBits ≤ f.infBits

theorem roomy_binary32 : binary32.Roomy := ⟨by decide, by decide, by decide⟩

theorem roomy_binary64 : binary64.Roomy := ⟨by decide, by decide, by decide⟩

section Roomy

variable {f : FloatFormat} (hf : f.Roomy)
include hf

theorem oneBits_lt_infBits : f.oneBits < f.infBits := by
  obtain ⟨-, -, hinf⟩ := hf
  have hp : 0 < 2 ^ f.fracBits := by positivity
  refine lt_of_lt_of_le ?_ hinf
  exact Nat.mul_lt_mul_of_pos_right (by omega) hp

theorem value_oneBits : f.value f.oneBits = 1 := by
  obtain ⟨-, hb, -⟩ := hf
  have hp : 0 < 2 ^ f.fracBits := by positivity
  rw [FloatFormat.value, FloatFormat.oneBits, Nat.mul_div_cancel _ hp, Nat.mul_mod_left, if_neg (by omega)]
  simp

/-- Below overflow a quotient rounds to a nearest value (R18). -/
theorem rneBits_nearest_of_le {n d : Nat} (hd : 0 < d) (h : (n : ℚ) / d ≤ 2 ^ 32) :
    f.IsNearest ((n : ℚ) / d) (rneBits f n d) := by
  obtain ⟨hp, hb, hinf⟩ := hf
  refine rneBits_nearest f hp (by omega) n d hd (h.trans_lt ?_) hinf
  rw [zpow_natCast]
  exact pow_lt_pow_right₀ (by norm_num) hb

/-- Quotients by one divisor round in order. -/
theorem rneBits_monotoneOn {d max : Nat} (hd : 0 < d) (hmax : (max : ℚ) / d ≤ 2 ^ 32) :
    MonotoneOn (fun n => rneBits f n d) (Set.Iic max) := by
  have hnear : ∀ n ≤ max, f.IsNearest ((n : ℚ) / d) (rneBits f n d) := fun n hn =>
    rneBits_nearest_of_le hf hd (le_trans (by gcongr) hmax)
  exact fun n hn m hm hnm => (hnear n hn).mono (hnear m hm) (by gcongr)

/-- Quotients in [0, 1] among them. -/
theorem rneBits_monotoneOn_self {d : Nat} (hd : 0 < d) : MonotoneOn (fun n => rneBits f n d) (Set.Iic d) := by
  have hdq : (d : ℚ) ≠ 0 := by exact_mod_cast hd.ne'
  exact rneBits_monotoneOn hf hd (by rw [div_self hdq]; norm_num)

/-- No tie arises in rounding a quotient in [0, 1] with an odd divisor: 0 and 1 are values, and any other such quotient
is not the middle of two, since that is dyadic (R141). -/
theorem rneBits_strictlyNearest_of_odd {n d : Nat} (hodd : Odd d) (hn : n ≤ d) :
    f.IsStrictlyNearest ((n : ℚ) / d) (rneBits f n d) := by
  have hd : 0 < d := hodd.pos
  have hdq : (0 : ℚ) < d := by exact_mod_cast hd
  have hle : (n : ℚ) / d ≤ 1 := (div_le_one hdq).2 (by exact_mod_cast hn)
  have hnear := rneBits_nearest_of_le hf hd (hle.trans (by norm_num))
  obtain rfl | hpos := Nat.eq_zero_or_pos n
  · exact hnear.strictly_of_value ((Nat.zero_le _).trans_lt hnear.1) (by rw [value_zeroBits, Nat.cast_zero, zero_div])
  obtain rfl | hlt := hn.eq_or_lt
  · exact hnear.strictly_of_value (oneBits_lt_infBits hf) (by rw [value_oneBits hf, div_self hdq.ne'])
  obtain ⟨hp, hb, hinf⟩ := hf
  obtain ⟨k, sig, S, hquot, hbits, hlow, hhigh, hup, hdown, heven, hfin⟩ :=
    rneBits_sig f (by omega) n d hpos hd (hle.trans_lt (one_lt_zpow₀ (by norm_num) (by omega))) hinf
  have notie : ∀ m : ℤ, 2 * S ≠ m := fun m hm => by
    refine div_ne_dyadic hpos hlt hodd m (k - f.bias - f.fracBits) ?_
    have hpow : (2 : ℚ) ^ k * 2 ^ (1 - (f.bias : ℤ) - f.fracBits) = 2 * 2 ^ ((k : ℤ) - f.bias - f.fracBits) := by
      rw [← zpow_natCast, ← zpow_add₀ two_ne_zero, ← zpow_one_add₀ two_ne_zero]
      congr 1
      ring
    rw [hquot, mul_assoc, hpow, ← hm]
    ring
  rw [hquot, hbits]
  refine (nearest_of_sig f hp k sig S hlow hhigh hup hdown heven hfin).2 ⟨fun h => ?_, fun h => ?_⟩
  · exact notie (2 * sig - 1) (by push_cast; linarith)
  · exact notie (2 * sig + 1) (by push_cast; linarith)

end Roomy

/-- The value of one format, rounded to another. -/
theorem rneBits_floatRatio_nearest {f g : FloatFormat} (hg : g.Roomy) {b : Nat} (h : f.value b ≤ 2 ^ 32) :
    g.IsNearest (f.value b) (rneBits g (floatRatio f b).1 (floatRatio f b).2) := by
  obtain ⟨hval, hpos⟩ := floatRatio_value f b
  rw [hval] at h ⊢
  exact rneBits_nearest_of_le hg hpos h

/-- The quotient of two values, rounded. -/
theorem rneBits_quotient_nearest {f : FloatFormat} (hf : f.Roomy) {a b : Nat} (hb : 0 < f.value b)
    (h : f.value a / f.value b ≤ 2 ^ 32) :
    f.IsNearest (f.value a / f.value b)
      (rneBits f ((floatRatio f a).1 * (floatRatio f b).2) ((floatRatio f a).2 * (floatRatio f b).1)) := by
  obtain ⟨haval, hapos⟩ := floatRatio_value f a
  obtain ⟨hbval, -⟩ := floatRatio_value f b
  have hbpos : 0 < (floatRatio f b).1 := Nat.pos_of_ne_zero fun h0 => by simp [hbval, h0] at hb
  rw [haval, hbval, div_div_div_eq, ← Nat.cast_mul, ← Nat.cast_mul] at h ⊢
  exact rneBits_nearest_of_le hf (Nat.mul_pos hapos hbpos) h

/-! ### What a conversion to [0, 1] gives -/

/-- A conversion of the draws up to `max` that gives +0.0 for 0, a normal value up to 1.0 for any other, and 1.0
exactly from `t` on (R143, R147). -/
def IntoUnit (f : FloatFormat) (conv : Nat → Nat) (max t : Nat) : Prop :=
  ∀ x ≤ max, conv x ≤ f.oneBits ∧ (if x = 0 then conv x = 0 else 2 ^ f.fracBits ≤ conv x) ∧
    (conv x = f.oneBits ↔ t ≤ x)

/-- A conversion that keeps the order need be evaluated at the ends and on both sides of `t` alone. -/
theorem intoUnit_of_monotoneOn {f : FloatFormat} {conv : Nat → Nat} {max t : Nat}
    (hmono : MonotoneOn conv (Set.Iic max)) (ht : 1 ≤ t ∧ t ≤ max)
    (h : conv 0 = 0 ∧ 2 ^ f.fracBits ≤ conv 1 ∧ conv (t - 1) < f.oneBits ∧ conv t = f.oneBits ∧
      conv max = f.oneBits) :
    IntoUnit f conv max t := by
  obtain ⟨hzero, hone, hbelow, hfrom, hmax⟩ := h
  have hle : ∀ {x y}, x ≤ y → y ≤ max → conv x ≤ conv y := fun hxy hy => hmono (hxy.trans hy) hy hxy
  intro x hx
  have hx1 : conv x ≤ f.oneBits := hmax ▸ hle hx le_rfl
  refine ⟨hx1, ?_, fun heq => ?_, fun htx => le_antisymm hx1 (hfrom ▸ hle htx hx)⟩
  · split
    case isTrue h0 => rw [h0, hzero]
    case isFalse h0 => exact hone.trans (hle (Nat.one_le_iff_ne_zero.2 h0) hx)
  · by_contra hlt
    exact absurd (hle (show x ≤ t - 1 by omega) (by omega)) (by omega)

/-- The conversion of each `FLOAT32_METHOD`, on numbers (R140). -/
def f32Of : Float32Method → Nat → Nat
  | .singleRounding => f32Single
  | .naiveF32       => f32Naive
  | .viaF64         => f32ViaF64

/-- The three branches of `u32ToF32` as one. -/
theorem u32ToF32_eq (m : Float32Method) (x : Word) : u32ToF32 m x = BitVec.ofNat 32 (f32Of m x.toNat) := by
  cases m <;> rfl

/-- The binary64 of a 32-bit draw lies in [0, 1]. -/
theorem u32ToF64_intoUnit : IntoUnit binary64 (fun x => rneBits binary64 x u32Max) u32Max u32Max :=
  intoUnit_of_monotoneOn (rneBits_monotoneOn_self roomy_binary64 (by decide)) (by decide) (by decide)

theorem u64ToF64_intoUnit : IntoUnit binary64 (fun z => rneBits binary64 z u64Max) u64Max 0xfffffffffffffc00 :=
  intoUnit_of_monotoneOn (rneBits_monotoneOn_self roomy_binary64 (by decide)) (by decide) (by decide)

theorem f32Single_monotoneOn : MonotoneOn f32Single (Set.Iic u32Max) :=
  rneBits_monotoneOn_self roomy_binary32 (by decide)

/-- R140's intermediate value under VIA_F64 is at most 1. -/
theorem f32ViaF64_nearest {x : Nat} (hx : x ≤ u32Max) :
    binary32.IsNearest (binary64.value (rneBits binary64 x u32Max)) (f32ViaF64 x) := by
  refine rneBits_floatRatio_nearest roomy_binary32 ?_
  have hle := (value_strictMono binary64).monotone (u32ToF64_intoUnit x hx).1
  rw [value_oneBits roomy_binary64] at hle
  exact hle.trans (by norm_num)

theorem f32ViaF64_monotoneOn : MonotoneOn f32ViaF64 (Set.Iic u32Max) := fun x hx y hy hxy =>
  (f32ViaF64_nearest hx).mono (f32ViaF64_nearest hy) <| (value_strictMono binary64).monotone <|
    rneBits_monotoneOn_self roomy_binary64 (by decide) hx hy hxy

/-- `RNE32(4294967295) = 2^32` (R140). -/
theorem rneBits_u32Max : rneBits binary32 u32Max 1 = 0x4f800000 := by decide

theorem value_two_pow_32 : binary32.value 0x4f800000 = 4294967296 := by
  have h := value_add_exponent binary32 (b := binary32.oneBits) (by decide) 32
  rw [value_oneBits roomy_binary32] at h
  exact h.trans (by norm_num)

theorem rneBits_one_monotoneOn : MonotoneOn (fun x => rneBits binary32 x 1) (Set.Iic u32Max) :=
  rneBits_monotoneOn roomy_binary32 one_pos (by norm_num [u32Max])

theorem rneBits_one_nearest {x : Nat} (hx : x ≤ u32Max) : binary32.IsNearest (x : ℚ) (rneBits binary32 x 1) := by
  have hle : (x : ℚ) ≤ u32Max := by exact_mod_cast hx
  have h := rneBits_nearest_of_le roomy_binary32 (n := x) one_pos
    (by rw [Nat.cast_one, div_one]; exact hle.trans (by norm_num [u32Max]))
  rwa [Nat.cast_one, div_one] at h

/-- Under NAIVE_F32 the rounded draw is divided by 2^32 (R140). -/
theorem f32Naive_nearest {x : Nat} (hx : x ≤ u32Max) :
    binary32.IsNearest (binary32.value (rneBits binary32 x 1) / 4294967296) (f32Naive x) := by
  have hdivisor : binary32.value (rneBits binary32 u32Max 1) = 4294967296 := rneBits_u32Max ▸ value_two_pow_32
  have hle := (value_strictMono binary32).monotone (rneBits_one_monotoneOn hx Set.self_mem_Iic hx)
  rw [hdivisor] at hle
  rw [← hdivisor]
  refine rneBits_quotient_nearest roomy_binary32 (by rw [hdivisor]; norm_num) ?_
  rw [hdivisor]
  linarith

theorem f32Naive_monotoneOn : MonotoneOn f32Naive (Set.Iic u32Max) := fun x hx y hy hxy =>
  (f32Naive_nearest hx).mono (f32Naive_nearest hy) <| by
    have := (value_strictMono binary32).monotone (rneBits_one_monotoneOn hx hy hxy)
    gcongr

theorem f32Of_intoUnit (m : Float32Method) :
    IntoUnit binary32 (f32Of m) u32Max (if m = .viaF64 then 0xffffff7f else 0xffffff80) := by
  cases m with
  | singleRounding => exact intoUnit_of_monotoneOn f32Single_monotoneOn (by decide) (by decide)
  | naiveF32 => exact intoUnit_of_monotoneOn f32Naive_monotoneOn (by decide) (by decide)
  | viaF64 => exact intoUnit_of_monotoneOn f32ViaF64_monotoneOn (by decide) (by decide)

/-! ### The conversions round as R140, R141 and R145 say -/

theorem toNat_le_u32Max (x : Word) : x.toNat ≤ u32Max := Nat.le_of_lt_succ x.isLt

theorem toNat_le_u64Max (z : DWord) : z.toNat ≤ u64Max := Nat.le_of_lt_succ z.isLt

/-- The bits of a conversion into [0, 1] fit their word. -/
theorem IntoUnit.toNat_ofNat {f : FloatFormat} {conv : Nat → Nat} {max t w : Nat} (h : IntoUnit f conv max t)
    (hw : f.oneBits < 2 ^ w) {x : Nat} (hx : x ≤ max) : (BitVec.ofNat w (conv x)).toNat = conv x :=
  (BitVec.toNat_ofNat _ _).trans (Nat.mod_eq_of_lt ((h x hx).1.trans_lt hw))

@[simp] theorem u32ToF32_toNat (m : Float32Method) (x : Word) : (u32ToF32 m x).toNat = f32Of m x.toNat := by
  rw [u32ToF32_eq]
  exact (f32Of_intoUnit m).toNat_ofNat (by decide) (toNat_le_u32Max x)

@[simp] theorem u32ToF64_toNat (x : Word) : (u32ToF64 x).toNat = rneBits binary64 x.toNat u32Max :=
  u32ToF64_intoUnit.toNat_ofNat (by decide) (toNat_le_u32Max x)

@[simp] theorem u64ToF64_toNat (z : DWord) : (u64ToF64 z).toNat = rneBits binary64 z.toNat u64Max :=
  u64ToF64_intoUnit.toNat_ofNat (by decide) (toNat_le_u64Max z)

/-- A rounded draw divided by 2^32 is a binary32 value: that of the pattern whose exponent field is 32 lower. -/
theorem exists_value_div_two_pow_32 {x : Nat} (hx : x ≤ u32Max) :
    ∃ c < binary32.infBits, binary32.value c = binary32.value (rneBits binary32 x 1) / 4294967296 := by
  obtain rfl | hpos := Nat.eq_zero_or_pos x
  · exact ⟨0, by decide, by simp [rneBits, value_zeroBits]⟩
  have hone : 127 * 2 ^ 23 ≤ rneBits binary32 x 1 := rneBits_one_monotoneOn (show 1 ≤ u32Max by decide) hx hpos
  have hmax : rneBits binary32 x 1 ≤ 0x4f800000 :=
    (rneBits_one_monotoneOn hx Set.self_mem_Iic hx).trans_eq rneBits_u32Max
  obtain ⟨c, hc⟩ : ∃ c, rneBits binary32 x 1 = c + 32 * 2 ^ 23 := ⟨_, (Nat.sub_add_cancel (by omega)).symm⟩
  have hscale : binary32.value (c + 32 * 2 ^ 23) = binary32.value c * 2 ^ 32 :=
    value_add_exponent binary32 (show 2 ^ 23 ≤ c by omega) 32
  refine ⟨c, show c < 255 * 2 ^ 23 by omega, ?_⟩
  rw [hc, hscale]
  norm_num

/-- R140's division under NAIVE_F32 is exact. -/
theorem value_f32Naive {x : Nat} (hx : x ≤ u32Max) :
    binary32.value (f32Naive x) = binary32.value (rneBits binary32 x 1) / 4294967296 := by
  obtain ⟨c, hc, hval⟩ := exists_value_div_two_pow_32 hx
  have hnear := f32Naive_nearest hx
  rw [← hval] at hnear ⊢
  rw [hnear.eq_of_value hc]

theorem u32ToF32_single_strictlyNearest (x : Word) :
    binary32.IsStrictlyNearest ((x.toNat : ℚ) / 4294967295) (u32ToF32 .singleRounding x).toNat := by
  rw [u32ToF32_toNat]
  exact rneBits_strictlyNearest_of_odd roomy_binary32 (d := u32Max) (by decide) (toNat_le_u32Max x)

theorem u32ToF64_strictlyNearest (x : Word) :
    binary64.IsStrictlyNearest ((x.toNat : ℚ) / 4294967295) (u32ToF64 x).toNat := by
  rw [u32ToF64_toNat]
  exact rneBits_strictlyNearest_of_odd roomy_binary64 (d := u32Max) (by decide) (toNat_le_u32Max x)

theorem u64ToF64_strictlyNearest (z : DWord) :
    binary64.IsStrictlyNearest ((z.toNat : ℚ) / 18446744073709551615) (u64ToF64 z).toNat := by
  rw [u64ToF64_toNat]
  exact rneBits_strictlyNearest_of_odd roomy_binary64 (d := u64Max) (by decide) (toNat_le_u64Max z)

/-- Settles O41: the divisors are odd. -/
theorem singleRoundingMeetsNoTie : Obligations.SingleRoundingMeetsNoTie :=
  ⟨u32ToF32_single_strictlyNearest, u32ToF64_strictlyNearest, u64ToF64_strictlyNearest⟩

/-- Settles O40: what is strictly nearest is nearest. -/
theorem toF64RoundsTheQuotient : Obligations.ToF64RoundsTheQuotient :=
  ⟨fun x => nearest_of_strictly (u32ToF64_strictlyNearest x), fun z => nearest_of_strictly (u64ToF64_strictlyNearest z)⟩

/-- Settles O39: each method rounds the quotients R140 names, and the division of NAIVE_F32 is exact. -/
theorem u32ToF32RoundsAsItsMethodSays : Obligations.U32ToF32RoundsAsItsMethodSays := by
  intro x
  have hx := toNat_le_u32Max x
  refine ⟨nearest_of_strictly (u32ToF32_single_strictlyNearest x),
    ⟨rneBits binary32 x.toNat 1, 0x4f800000, rneBits_one_nearest hx, ?_, value_two_pow_32, ?_, ?_⟩,
    rneBits binary64 x.toNat u32Max, ?_, ?_⟩
  · exact rneBits_u32Max ▸ rneBits_one_nearest le_rfl
  · rw [u32ToF32_toNat, value_two_pow_32]
    exact f32Naive_nearest hx
  · rw [u32ToF32_toNat]
    exact value_f32Naive hx
  · exact u32ToF64_toNat x ▸ nearest_of_strictly (u32ToF64_strictlyNearest x)
  · rw [u32ToF32_toNat]
    exact f32ViaF64_nearest hx

/-! ### Ranges and endpoints -/

/-- What `IntoUnit` says of the bits given for a draw `x` of any width. -/
theorem IntoUnit.bits {f : FloatFormat} {conv : Nat → Nat} {max t w v : Nat} (h : IntoUnit f conv max t)
    {x : BitVec v} (hx : x.toNat ≤ max) {b : BitVec w} (hb : b.toNat = conv x.toNat) :
    b.toNat ≤ f.oneBits ∧ (b = 0 ↔ x = 0) ∧ (b ≠ 0 → 2 ^ f.fracBits ≤ b.toNat) ∧
      (b.toNat = f.oneBits ↔ t ≤ x.toNat) := by
  obtain ⟨hle, hnormal, hone⟩ := h _ hx
  have hp : 0 < 2 ^ f.fracBits := by positivity
  rw [← hb] at hle hnormal hone
  have hzero : b = 0 ↔ b.toNat = 0 := BitVec.toNat_inj.symm
  have hxzero : x = 0 ↔ x.toNat = 0 := BitVec.toNat_inj.symm
  rw [ne_eq, hzero, hxzero]
  refine ⟨hle, ?_, ?_, hone⟩ <;> split at hnormal <;> omega

/-- Settles O42, from `f32Of_intoUnit`. -/
theorem f32RangeAndEndpoints : Obligations.F32RangeAndEndpoints := by
  intro m x
  obtain ⟨hle, hzero, -, hone⟩ := (f32Of_intoUnit m).bits (toNat_le_u32Max x) (u32ToF32_toNat m x)
  exact ⟨hle, hzero, BitVec.toNat_inj.symm.trans hone⟩

/-- A greater draw converts to another value: the quotients are more than 2^-52 apart, and the values up to 1.0 no
more than that. -/
theorem u32ToF64_ne_of_lt {x y : Word} (hlt : x.toNat < y.toNat) : u32ToF64 x ≠ u32ToF64 y := by
  intro heq
  have hx := nearest_of_strictly (u32ToF64_strictlyNearest x)
  have hy := nearest_of_strictly (u32ToF64_strictlyNearest y)
  rw [heq] at hx
  obtain ⟨hle, hzero, hnormal, -⟩ := u32ToF64_intoUnit.bits (toNat_le_u32Max y) (u32ToF64_toNat y)
  have hpos : 1 ≤ (u32ToF64 y).toNat := Nat.one_le_two_pow.trans (hnormal fun h => by simp [hzero.1 h] at hlt)
  have hinf : binary64.oneBits + 1 < binary64.infBits := by decide
  have hbelow := value_succ_sub_le (f := binary64) (by decide) (b := (u32ToF64 y).toNat - 1) (by omega)
  rw [Nat.sub_add_cancel hpos] at hbelow
  have hclose := hx.quotient_sub_le hy hpos (by omega) hbelow (value_succ_sub_le (by decide) hle)
  have hapart : (x.toNat : ℚ) + 1 ≤ y.toNat := by exact_mod_cast hlt
  norm_num [binary64] at hclose
  linarith

theorem u32ToF64_injective : Function.Injective u32ToF64 := fun _ _ h =>
  BitVec.eq_of_toNat_eq <| by_contra fun hne =>
    (Nat.lt_or_gt_of_ne hne).elim (u32ToF64_ne_of_lt · h) (u32ToF64_ne_of_lt · h.symm)

/-- Settles O43, from the two conversions' ranges and the values' being close. -/
theorem f64RangeAndEndpoints : Obligations.F64RangeAndEndpoints := by
  refine ⟨fun x => ?_, u32ToF64_injective, fun z => ?_⟩
  · obtain ⟨hle, hzero, -, hone⟩ := u32ToF64_intoUnit.bits (toNat_le_u32Max x) (u32ToF64_toNat x)
    have hmax : u32Max ≤ x.toNat ↔ x = 0xffffffff :=
      (toNat_le_u32Max x).ge_iff_eq.trans (BitVec.toNat_inj (y := 0xffffffff))
    exact ⟨hle, hzero, BitVec.toNat_inj.symm.trans (hone.trans hmax)⟩
  · obtain ⟨hle, hzero, -, hone⟩ := u64ToF64_intoUnit.bits (toNat_le_u64Max z) (u64ToF64_toNat z)
    exact ⟨hle, hzero, BitVec.toNat_inj.symm.trans hone⟩

/-- A pattern up to 1.0 that is normal or 0 has sign 0, an exponent field below the greatest, and the exponent field 0
only if it is 0. -/
theorem fields_of_le_oneBits {f : FloatFormat} (hf : f.bias < 2 ^ f.expBits - 1) {w : Nat} {b : BitVec w}
    (hle : b.toNat ≤ f.oneBits) (hnormal : b ≠ 0 → 2 ^ f.fracBits ≤ b.toNat) :
    b.getLsbD (f.fracBits + f.expBits) = false ∧
      b.extractLsb' f.fracBits f.expBits ≠ BitVec.ofNat f.expBits (2 ^ f.expBits - 1) ∧
      (b.extractLsb' f.fracBits f.expBits = 0 → b = 0) := by
  have hp : 0 < 2 ^ f.fracBits := by positivity
  have hfield : b.toNat / 2 ^ f.fracBits ≤ f.bias := Nat.div_le_of_le_mul (by rwa [Nat.mul_comm])
  have hextract : (b.extractLsb' f.fracBits f.expBits).toNat = b.toNat / 2 ^ f.fracBits := by
    rw [BitVec.extractLsb'_toNat, Nat.shiftRight_eq_div_pow, Nat.mod_eq_of_lt (by omega)]
  refine ⟨?_, fun h => ?_, fun h => ?_⟩
  · refine Nat.testBit_lt_two_pow ?_
    rw [Nat.pow_add, Nat.mul_comm, ← Nat.div_lt_iff_lt_mul hp]
    omega
  · rw [h, BitVec.toNat_ofNat, Nat.mod_eq_of_lt (by omega)] at hextract
    omega
  · rw [h] at hextract
    by_contra hne
    have hpos := (Nat.one_le_div_iff hp).2 (hnormal hne)
    simp [← hextract] at hpos

/-- Settles O44: results are normal or +0.0, and none exceeds 1.0, whose exponent field is the bias. -/
theorem floatResultsAreOrdinary : Obligations.FloatResultsAreOrdinary := by
  refine ⟨fun m x => ?_, fun x => ?_, fun z => ?_⟩
  · obtain ⟨hle, -, hnormal, -⟩ := (f32Of_intoUnit m).bits (toNat_le_u32Max x) (u32ToF32_toNat m x)
    exact fields_of_le_oneBits (f := binary32) (by decide) hle hnormal
  · obtain ⟨hle, -, hnormal, -⟩ := u32ToF64_intoUnit.bits (toNat_le_u32Max x) (u32ToF64_toNat x)
    exact fields_of_le_oneBits (f := binary64) (by decide) hle hnormal
  · obtain ⟨hle, -, hnormal, -⟩ := u64ToF64_intoUnit.bits (toNat_le_u64Max z) (u64ToF64_toNat z)
    exact fields_of_le_oneBits (f := binary64) (by decide) hle hnormal

/-! ### Both endpoints are drawn -/

/-- A seeded state that holds `w` everywhere, with the cursor at `ix`. -/
def State.filledWith (w : Word) (ix : Fin 625) : State :=
  { State.reset with mt := Vector.replicate 624 w, index := ix, seeded := true }

theorem filledWith_inv (w : Word) : (State.filledWith w 1).Inv := ⟨fun _ => le_rfl, nofun, nofun, .nil⟩

/-- Below index 624 it draws that word. -/
theorem draw32_filledWith (w : Word) {ix : Fin 625} (h : ix ≠ 624) :
    draw32 (State.filledWith w ix) = (temper w, State.filledWith w (ix + 1)) := by
  have hword : mtWord (State.filledWith w ix).mt ix.val = w := by simp [mtWord, State.filledWith]
  rw [draw32_below_624 (s := State.filledWith w ix) h]
  exact Prod.ext (congrArg temper hword) rfl

/-- Some seeded state's next two draws are both `x`, since tempering is onto (R133). -/
theorem exists_draws (x : Word) : ∃ s : State, s.Inv ∧ s.seeded = true ∧ (draw32 s).1 = x ∧
    (draw32 (draw32 s).2).1 = x := by
  obtain ⟨w, rfl⟩ := temper_bijective.surjective x
  refine ⟨State.filledWith w 1, filledWith_inv w, rfl, ?_, ?_⟩
  · rw [draw32_filledWith w (by decide)]
  · rw [draw32_filledWith w (by decide), draw32_filledWith w (by decide)]

/-- `NEXT_F32` can respond with the binary32 of any word, under every method. -/
theorem nextF32With_responds (m : Float32Method) (x : Word) : ∃ s t : State, s.Inv ∧ s.seeded = true ∧
    nextF32With m s = .next t ∧ t.rsp = some ⟨0, zext64 (u32ToF32 m x)⟩ := by
  obtain ⟨s, hi, hs, rfl, -⟩ := exists_draws x
  exact ⟨s, _, hi, hs, whenSeeded_of_seeded hs _, rfl⟩

/-- The binary64 a source makes of draws that are all `x` (R146). -/
def f64Of (src : F64Source) (x : Word) : DWord :=
  match src with
  | .u32 => u32ToF64 x
  | .u64 => u64ToF64 (joinWords x x)

/-- So can `NEXT_F64`, under both sources. -/
theorem nextF64With_responds (src : F64Source) (x : Word) : ∃ s t : State, s.Inv ∧ s.seeded = true ∧
    nextF64With src s = .next t ∧ t.rsp = some ⟨0, f64Of src x⟩ := by
  obtain ⟨s, hi, hs, hfirst, hsecond⟩ := exists_draws x
  refine ⟨s, _, hi, hs, whenSeeded_of_seeded hs _, ?_⟩
  cases src with
  | u32 => simp [drawF64, f64Of, hfirst, codeOk]
  | u64 => simp [drawF64, f64Of, hfirst, hsecond, codeOk]

/-- Settles O45: from a state that draws 0, and from one that draws the greatest word. -/
theorem bothEndpointsAreDrawn : Obligations.BothEndpointsAreDrawn := by
  have hf32 (m : Float32Method) : zext64 (u32ToF32 m 0) = 0 ∧
      zext64 (u32ToF32 m 0xffffffff) = 0x3f800000 := by
    cases m <;> decide
  have hf64 (src : F64Source) : f64Of src 0 = 0 ∧ f64Of src 0xffffffff = 0x3ff0000000000000 := by
    cases src <;> decide
  refine ⟨fun m => ?_, fun m => ?_, fun src => ?_, fun src => ?_⟩
  · exact (hf32 m).1 ▸ nextF32With_responds m 0
  · exact (hf32 m).2 ▸ nextF32With_responds m 0xffffffff
  · exact (hf64 src).1 ▸ nextF64With_responds src 0
  · exact (hf64 src).2 ▸ nextF64With_responds src 0xffffffff

end Sys2Proof.Machine

/-! PROOFS. The family 60_exceptions.md: the two errors, which commands end in them, and that nothing else stops. -/

namespace Sys2Proof.Machine

/-! ### What a command word and an edge answer -/

/-- A word with a reserved opcode is ILLEGAL_OP on every state (R172, R175). -/
theorem runCommand_of_reserved {w : CmdWord} (h : 6 ≤ (cmdOp w).toNat) (s : State) :
    runCommand w s = .next { s with stickyErr := true, rsp := some ⟨codeIllegalOp, 0⟩ } :=
  (runCommand_of_none (decode_eq_none_iff.2 h) s).trans (cmdError_eq codeIllegalOp s)

/-- The draw commands are those with an opcode from 2 on (R77). -/
theorem two_le_opcode_of_drawOf {i : Instr} {body : State → State} (hb : drawOf i = some body) :
    2 ≤ (opcode i).toNat := by
  cases i with
  | nop | seed => exact nomatch hb
  | nextU32 | nextU64 | nextF32 | nextF64 => simp [opcode]

/-- A draw of an unseeded state is refused with NOT_SEEDED, and every other command succeeds (R170, R173). -/
theorem exec_refused_or_ok (i : Instr) (s : State) :
    (2 ≤ (opcode i).toNat ∧ s.seeded = false ∧
      exec i s = .next { s with stickyErr := true, rsp := some ⟨codeNotSeeded, 0⟩ }) ∨
    (¬ (2 ≤ (opcode i).toNat ∧ s.seeded = false) ∧ ∃ t d, exec i s = .next t ∧ t.rsp = some ⟨codeOk, d⟩) := by
  obtain ⟨rfl, he⟩ | ⟨v, rfl, he⟩ | ⟨body, hb, hs, he⟩ | ⟨body, hb, hs, he⟩ := exec_cases i s
  · exact .inr ⟨by simp [opcode], _, 0, he, rfl⟩
  · exact .inr ⟨by simp [opcode], _, 0, he, rfl⟩
  · exact .inl ⟨two_le_opcode_of_drawOf hb, hs, he⟩
  · obtain ⟨m, ix, d, -, hbody⟩ := drawOf_drawsOnly hb s
    exact .inr ⟨by simp [hs], _, d, he, by rw [hbody]⟩

/-- The code a word is answered with, from its opcode and `seeded` alone: the list of R174 in R175's order. -/
def responseCode (w : CmdWord) (s : State) : BitVec 2 :=
  if 6 ≤ (cmdOp w).toNat then codeIllegalOp
  else if 2 ≤ (cmdOp w).toNat ∧ s.seeded = false then codeNotSeeded
  else codeOk

/-- A word is answered OK, or its whole effect is the error response and `sticky_err` (R171, R174). -/
theorem runCommand_answers_responseCode (w : CmdWord) (s : State) :
    (responseCode w s = codeOk ∧ ∃ t d, runCommand w s = .next t ∧ t.rsp = some ⟨responseCode w s, d⟩) ∨
      runCommand w s = .next { s with stickyErr := true, rsp := some ⟨responseCode w s, 0⟩ } := by
  by_cases hop : 6 ≤ (cmdOp w).toNat
  · rw [responseCode, if_pos hop]
    exact .inr (runCommand_of_reserved hop s)
  · obtain ⟨i, hi⟩ := Option.ne_none_iff_exists'.1 (mt decode_eq_none_iff.1 hop)
    obtain ⟨hopcode, -⟩ := decode_eq_some_iff.1 hi
    rw [responseCode, if_neg hop, runCommand_of_some hi, hopcode]
    obtain ⟨hdraw, hs, he⟩ | ⟨hok, hnext⟩ := exec_refused_or_ok i s
    · rw [if_pos ⟨hdraw, hs⟩]
      exact .inr he
    · rw [if_neg hok]
      exact .inl ⟨rfl, hnext⟩

/-- Every edge answers a next state, under `rst` or not (R210). -/
theorem step_answers (s : State) : ∃ t, step s = .next t := by
  cases hrst : s.pins.rst with
  | true => exact ⟨_, risingEdge_of_rst hrst⟩
  | false =>
    obtain ⟨t, hstep, -⟩ := step_view hrst
    exact ⟨t, hstep⟩

/-! ### The obligations -/

/-- Settles O20: the word's code is `responseCode`, and an error's whole effect sets `sticky_err`. -/
theorem errorsAreExactlyTheListed : Obligations.ErrorsAreExactlyTheListed := by
  intro w s
  obtain ⟨hok, t, d, hrun, hrsp⟩ | hrun := runCommand_answers_responseCode w s
  · exact ⟨t, d, hrun, hrsp, fun herr => absurd hok herr⟩
  · exact ⟨_, 0, hrun, rfl, fun _ => rfl⟩

/-- Settles O21: a response that is not OK leaves only the second case of `runCommand_answers_responseCode`. -/
theorem errorsChangeNothingElse : Obligations.ErrorsChangeNothingElse := by
  intro w s t r h hr herr
  obtain ⟨hok, t', d, hrun, hrsp⟩ | hrun := runCommand_answers_responseCode w s
  · cases hrun.symm.trans h
    cases hrsp.symm.trans hr
    exact absurd hok herr
  · cases hrun.symm.trans h
    cases hr
    rfl

/-- Settles O9: the word of a steady offer runs, and a reserved opcode is ILLEGAL_OP. -/
theorem reservedOpcodeIsAnsweredIllegalOp : Obligations.ReservedOpcodeIsAnsweredIllegalOp := by
  intro s w ready rest hr ho hi hop
  rw [← cmdOp_toNat_eq_shiftRight] at hop
  exact (step_of_steady_offer hr ho hi).trans (runCommand_of_reserved hop _)

/-- Settles O22: the guard of R173 stands before all four draws, whatever they convert, and not before `NOP` and
`SEED`. -/
theorem drawBeforeSeedIsRefused : Obligations.DrawBeforeSeedIsRefused := by
  refine ⟨fun s hs => ?_, fun i s hi => ?_⟩
  · exact ⟨exec_of_drawOf_of_unseeded (i := .nextU32) rfl hs, exec_of_drawOf_of_unseeded (i := .nextU64) rfl hs,
      exec_of_drawOf_of_unseeded (i := .nextF32) rfl hs, exec_of_drawOf_of_unseeded (i := .nextF64) rfl hs,
      fun m => whenSeeded_of_unseeded hs (drawF32 m), fun src => whenSeeded_of_unseeded hs (drawF64 src)⟩
  · obtain rfl | ⟨v, rfl⟩ := hi
    · exact ⟨_, exec_nop s, rfl⟩
    · exact ⟨_, exec_seed v s, rfl⟩

/-- Settles O23: a command is refused or succeeds, and only a draw of an unseeded state is refused. -/
theorem nothingStops : Obligations.NothingStops := by
  refine ⟨fun v s => ⟨_, exec_seed v s, rfl⟩, fun i s hs => ?_, fun i s => ?_, step_answers⟩
  · obtain ⟨-, hunseeded, -⟩ | ⟨-, hok⟩ := exec_refused_or_ok i s
    · simp [hs] at hunseeded
    · exact hok
  · obtain ⟨-, -, he⟩ | ⟨-, t, d, he, hrsp⟩ := exec_refused_or_ok i s
    · exact ⟨_, ⟨codeNotSeeded, 0⟩, he, rfl⟩
    · exact ⟨t, ⟨codeOk, d⟩, he, hrsp⟩

end Sys2Proof.Machine

/-! PROOFS. The family 70_reset_and_hazards.md: what reset clears, and that nothing before it is seen after it. -/

namespace Sys2Proof.Machine

/-! ### Commands of an unseeded state -/

/-- Every word is answered with data 0 by an unseeded state: no draw runs, and no other command returns data (R202). -/
theorem runCommand_rsp_of_unseeded (w : CmdWord) {s : State} (hs : s.seeded = false) :
    ∃ t, runCommand w s = .next t ∧ t.rsp = some ⟨responseCode w s, 0⟩ := by
  by_cases hop : 6 ≤ (cmdOp w).toNat
  · exact ⟨_, runCommand_of_reserved hop s, by rw [responseCode, if_pos hop]⟩
  · obtain ⟨i, hi⟩ := Option.ne_none_iff_exists'.1 (mt decode_eq_none_iff.1 hop)
    obtain ⟨hopcode, -⟩ := decode_eq_some_iff.1 hi
    rw [responseCode, if_neg hop, runCommand_of_some hi, hopcode]
    obtain ⟨rfl, he⟩ | ⟨v, rfl, he⟩ | ⟨body, hb, -, he⟩ | ⟨body, -, hseeded, -⟩ := exec_cases i s
    · exact ⟨_, he, rfl⟩
    · exact ⟨_, he, rfl⟩
    · exact ⟨_, he, by rw [if_pos ⟨two_le_opcode_of_drawOf hb, hs⟩]⟩
    · simp [hs] at hseeded

/-- Settles O19: the first edge after reset is a steady offer to an unseeded state. -/
theorem resetLeavesThePortReady : Obligations.ResetLeavesThePortReady := by
  refine ⟨rfl, rfl, rfl, rfl, fun w ready rest => ?_⟩
  obtain ⟨t, hrun, hrsp⟩ := runCommand_rsp_of_unseeded w (s := { State.reset with inputs := rest }) rfl
  refine ⟨t, (step_of_steady_offer rfl (.inl rfl) rfl).trans hrun, ?_⟩
  simpa [responseCode, State.reset, codeIllegalOp, codeNotSeeded, codeOk] using hrsp

/-! ### Reset -/

/-- An edge under `rst` accepts nothing. -/
theorem acceptedWord_of_rst {s : State} (hrst : s.pins.rst = true) : s.acceptedWord = none :=
  acceptedWord_of_none (.inl (by simp [State.cmdReady, hrst]))

/-- Settles O15: both ports are gated by `rst`, and the edge leaves `hardReset`. -/
theorem resetCancelsAndClears : Obligations.ResetCancelsAndClears := fun s hrst =>
  ⟨by simp [State.cmdReady, hrst], by simp [State.rspValid, hrst], _, risingEdge_of_rst hrst, rfl, rfl, rfl, rfl⟩

/-- From the stream that reset leaves, the words served add the responses they give from the reset state. -/
theorem serveAll_taken_of_reset {s : State} (h : s.SameStream State.reset) (ws : List CmdWord) :
    (serveAll s ws).taken = s.taken ++ (serveAll State.reset ws).taken := by
  obtain ⟨rs, hs, hreset⟩ := serveAll_sameStream ws h
  rw [hs, hreset]
  rfl

/-- Settles O51: the reset edge accepts nothing and leaves the reset state's stream with nothing outstanding. The run
after it serves the words it accepts, and their responses depend on the stream alone. -/
theorem responsesDependOnCommandsSinceReset : Obligations.ResponsesDependOnCommandsSinceReset := by
  refine ⟨fun k s p rest hi hp hrst => ?_, fun ws s => ?_⟩
  · have hpins : s.pins.rst = true := by rw [State.pins, hi]; exact hp
    have hstep := risingEdge_of_rst hpins
    set s₀ := (s.pastEdge.noteOffer s.pins).hardReset
    have hinputs : s₀.inputs = rest := congrArg List.tail hi
    obtain ⟨t, hrun, hview⟩ := runSteps_view k s₀ (by rwa [hinputs])
    refine ⟨t, (runSteps_succ hstep k).trans hrun, ?_⟩
    rw [acceptedWords_succ hstep, acceptedWord_of_rst hpins]
    calc t.taken ++ t.rsp.toList
        = (serveAll s₀.view (acceptedWords k s₀)).taken := congrArg State.taken hview
      _ = s₀.view.taken ++ (serveAll State.reset (acceptedWords k s₀)).taken :=
          serveAll_taken_of_reset (s := s₀.view) ⟨rfl, rfl, rfl⟩ _
      _ = s.taken ++ (serveAll State.reset (acceptedWords k s₀)).taken := by
          rw [show s₀.view.taken = s.taken from List.append_nil _]
  · set s₀ : State := { s with offered := [] }.hardReset
    have hstep : step { s with inputs := ⟨true, false, 0, false⟩ :: driveProgram ws } =
        .next { s₀ with inputs := driveProgram ws } := risingEdge_of_rst rfl
    obtain ⟨-, hrun⟩ := driveProgram_runs ws s₀ rfl rfl
    exact ⟨_, (runSteps_succ hstep _).trans hrun,
      serveAll_taken_of_reset (s := { s₀ with inputs := [] }) ⟨rfl, rfl, rfl⟩ ws⟩

end Sys2Proof.Machine
